-- ==== Sys2Proof/Word.lean ====
section
/-! DEFINITION. The word types of the CHIP-8 CORE block (spec/00_scope.md R10, spec/30_encoding.md R90, R91). -/

namespace Sys2Proof

/-- An 8-bit value: a V register, a timer, a memory byte, an immediate `kk` (R10, R21). -/
abbrev Byte := BitVec 8

/-- A 16-bit value: an instruction word, `pc`, `I`, a stack entry (R23, R30, R31, R90). -/
abbrev Word := BitVec 16

/-- A 4-bit field: a register number `x` or `y`, the row count `n`, a key (R29, R91). -/
abbrev Nibble := BitVec 4

/-- The 12-bit address field `nnn` (R91). -/
abbrev Addr12 := BitVec 12

end Sys2Proof
end

