-- ==== Sys2Proof/Syntax.lean ====
section
/-! DEFINITION. The instructions: one constructor for each of the 34 rows of spec/opcode_table.json, in the table's
order, its operands the fields its format names (spec/30_encoding.md R91, R93, R95). -/

namespace Sys2Proof

/-- An instruction of R95. An operand field has exactly the width R91 gives it, so every term is well formed. -/
inductive Instr where
  /-- CLS, 00E0 (R253). -/
  | cls
  /-- RET, 00EE (R120). -/
  | ret
  /-- JP nnn, 1nnn (R121). -/
  | jp (nnn : Addr12)
  /-- CALL nnn, 2nnn (R122). -/
  | call (nnn : Addr12)
  /-- SE Vx, kk, 3xkk (R142). -/
  | seImm (x : Nibble) (kk : Byte)
  /-- SNE Vx, kk, 4xkk (R143). -/
  | sneImm (x : Nibble) (kk : Byte)
  /-- SE Vx, Vy, 5xy0 (R144). -/
  | seReg (x y : Nibble)
  /-- LD Vx, kk, 6xkk (R162). -/
  | ldImm (x : Nibble) (kk : Byte)
  /-- ADD Vx, kk, 7xkk (R163). -/
  | addImm (x : Nibble) (kk : Byte)
  /-- LD Vx, Vy, 8xy0 (R164). -/
  | ldReg (x y : Nibble)
  /-- OR Vx, Vy, 8xy1 (R165). -/
  | orReg (x y : Nibble)
  /-- AND Vx, Vy, 8xy2 (R166). -/
  | andReg (x y : Nibble)
  /-- XOR Vx, Vy, 8xy3 (R167). -/
  | xorReg (x y : Nibble)
  /-- ADD Vx, Vy, 8xy4 (R168). -/
  | addReg (x y : Nibble)
  /-- SUB Vx, Vy, 8xy5 (R169). -/
  | subReg (x y : Nibble)
  /-- SHR Vx {, Vy}, 8xy6 (R170). -/
  | shr (x y : Nibble)
  /-- SUBN Vx, Vy, 8xy7 (R171). -/
  | subn (x y : Nibble)
  /-- SHL Vx {, Vy}, 8xyE (R172). -/
  | shl (x y : Nibble)
  /-- SNE Vx, Vy, 9xy0 (R145). -/
  | sneReg (x y : Nibble)
  /-- LD I, nnn, Annn (R200). -/
  | ldI (nnn : Addr12)
  /-- JP V0, nnn, Bnnn (R123). -/
  | jpV0 (nnn : Addr12)
  /-- RND Vx, kk, Cxkk (R173). -/
  | rnd (x : Nibble) (kk : Byte)
  /-- DRW Vx, Vy, n, Dxyn (R254). -/
  | drw (x y n : Nibble)
  /-- SKP Vx, Ex9E (R146). -/
  | skp (x : Nibble)
  /-- SKNP Vx, ExA1 (R147). -/
  | sknp (x : Nibble)
  /-- LD Vx, DT, Fx07 (R230). -/
  | ldVDt (x : Nibble)
  /-- LD Vx, K, Fx0A (R233). -/
  | ldVK (x : Nibble)
  /-- LD DT, Vx, Fx15 (R231). -/
  | ldDt (x : Nibble)
  /-- LD ST, Vx, Fx18 (R232). -/
  | ldSt (x : Nibble)
  /-- ADD I, Vx, Fx1E (R201). -/
  | addI (x : Nibble)
  /-- LD F, Vx, Fx29 (R202). -/
  | ldF (x : Nibble)
  /-- LD B, Vx, Fx33 (R203). -/
  | ldB (x : Nibble)
  /-- LD [I], Vx, Fx55 (R204). -/
  | ldMemV (x : Nibble)
  /-- LD Vx, [I], Fx65 (R205). -/
  | ldVMem (x : Nibble)
  deriving DecidableEq, Repr

end Sys2Proof
end

