-- ==== Sys2Proof/Decode.lean ====
section
/-! DEFINITION. The decoder (spec/30_encoding.md R91 to R99), total on every word and every byte string and rejecting by
name; then the encoder, written from the same formats (R93, R95); then the opcode map of R95 as match and mask. -/

namespace Sys2Proof

/-- Why no instruction is read. Neither is a fault of the machine: R96 gives an unrecognized word its meaning, a no-op. -/
inductive Reject where
  /-- The word matches no row of R95 (R96). -/
  | unrecognized (w : Word)
  /-- Fewer than the two bytes of a word are left (a byte string's end; the machine itself always fetches two). -/
  | truncated
  deriving DecidableEq, Repr

/-! ### The fields of a word (R91) -/

/-- `op` = w[15:12], the operation group. -/
def fieldOp (w : Word) : Nibble := w.extractLsb' 12 4
/-- `x` = w[11:8]. -/
def fieldX (w : Word) : Nibble := w.extractLsb' 8 4
/-- `y` = w[7:4]. -/
def fieldY (w : Word) : Nibble := w.extractLsb' 4 4
/-- `n` = w[3:0]. -/
def fieldN (w : Word) : Nibble := w.extractLsb' 0 4
/-- `kk` = w[7:0]. -/
def fieldKK (w : Word) : Byte := w.extractLsb' 0 8
/-- `nnn` = w[11:0]. -/
def fieldNNN (w : Word) : Addr12 := w.extractLsb' 0 12

/-! ### Decoding (R94, R95, R96) -/

/-- Group 0: dispatch on the whole word. -/
def decodeGroup0 (w : Word) : Except Reject Instr :=
  match w.toNat with
  | 0x00E0 => .ok .cls
  | 0x00EE => .ok .ret
  | _ => .error (.unrecognized w)

/-- Groups 5 and 9: the trailing nibble must be 0. -/
def decodeTrailingZero (w : Word) (i : Instr) : Except Reject Instr :=
  match (fieldN w).toNat with
  | 0 => .ok i
  | _ => .error (.unrecognized w)

/-- Group 8: sub-dispatch on the trailing nibble. -/
def decodeGroup8 (w : Word) : Except Reject Instr :=
  match (fieldN w).toNat with
  | 0x0 => .ok (.ldReg (fieldX w) (fieldY w))
  | 0x1 => .ok (.orReg (fieldX w) (fieldY w))
  | 0x2 => .ok (.andReg (fieldX w) (fieldY w))
  | 0x3 => .ok (.xorReg (fieldX w) (fieldY w))
  | 0x4 => .ok (.addReg (fieldX w) (fieldY w))
  | 0x5 => .ok (.subReg (fieldX w) (fieldY w))
  | 0x6 => .ok (.shr (fieldX w) (fieldY w))
  | 0x7 => .ok (.subn (fieldX w) (fieldY w))
  | 0xE => .ok (.shl (fieldX w) (fieldY w))
  | _ => .error (.unrecognized w)

/-- Group E: dispatch on the low byte. -/
def decodeGroupE (w : Word) : Except Reject Instr :=
  match (fieldKK w).toNat with
  | 0x9E => .ok (.skp (fieldX w))
  | 0xA1 => .ok (.sknp (fieldX w))
  | _ => .error (.unrecognized w)

/-- Group F: dispatch on the low byte. -/
def decodeGroupF (w : Word) : Except Reject Instr :=
  match (fieldKK w).toNat with
  | 0x07 => .ok (.ldVDt (fieldX w))
  | 0x0A => .ok (.ldVK (fieldX w))
  | 0x15 => .ok (.ldDt (fieldX w))
  | 0x18 => .ok (.ldSt (fieldX w))
  | 0x1E => .ok (.addI (fieldX w))
  | 0x29 => .ok (.ldF (fieldX w))
  | 0x33 => .ok (.ldB (fieldX w))
  | 0x55 => .ok (.ldMemV (fieldX w))
  | 0x65 => .ok (.ldVMem (fieldX w))
  | _ => .error (.unrecognized w)

/-- The decoder: dispatch on `op`, then as R94 says; it reads no state and never fails but by naming the word (R99). -/
def decode (w : Word) : Except Reject Instr :=
  match (fieldOp w).toNat with
  | 0x0 => decodeGroup0 w
  | 0x1 => .ok (.jp (fieldNNN w))
  | 0x2 => .ok (.call (fieldNNN w))
  | 0x3 => .ok (.seImm (fieldX w) (fieldKK w))
  | 0x4 => .ok (.sneImm (fieldX w) (fieldKK w))
  | 0x5 => decodeTrailingZero w (.seReg (fieldX w) (fieldY w))
  | 0x6 => .ok (.ldImm (fieldX w) (fieldKK w))
  | 0x7 => .ok (.addImm (fieldX w) (fieldKK w))
  | 0x8 => decodeGroup8 w
  | 0x9 => decodeTrailingZero w (.sneReg (fieldX w) (fieldY w))
  | 0xA => .ok (.ldI (fieldNNN w))
  | 0xB => .ok (.jpV0 (fieldNNN w))
  | 0xC => .ok (.rnd (fieldX w) (fieldKK w))
  | 0xD => .ok (.drw (fieldX w) (fieldY w) (fieldN w))
  | 0xE => decodeGroupE w
  | 0xF => decodeGroupF w
  | _ => .error (.unrecognized w)

/-- A big-endian word: the first byte supplies bits 15–8 (spec/20_memory.md R64). -/
def wordOfBytes (hi lo : Byte) : Word := hi ++ lo

/-- The byte of a word that lies at the lower address (R64). -/
def highByte (w : Word) : Byte := w.extractLsb' 8 8

/-- The byte of a word that lies at the higher address (R64). -/
def lowByte (w : Word) : Byte := w.extractLsb' 0 8

/-- Decoding a byte string: the instruction of its first two bytes, and the rest (R90: every word is two bytes). -/
def decodeBytes : List Byte → Except Reject (Instr × List Byte)
  | hi :: lo :: rest =>
    match decode (wordOfBytes hi lo) with
    | .ok i => .ok (i, rest)
    | .error r => .error r
  | _ => .error .truncated

/-- The word of a table row as the host numbers it: bits at and above `nbits` are 0. -/
def tableWord (nbits w : Nat) : Word := BitVec.ofNat 16 (w % 2 ^ nbits)

/-- The instruction the decoder reads from the word's bytes laid out as the hardware stores them (R64). -/
def decodeTableWord (nbits w : Nat) : Option Instr :=
  match decodeBytes [highByte (tableWord nbits w), lowByte (tableWord nbits w)] with
  | .ok (i, _) => some i
  | .error _ => none

/-! ### Encoding (R93, R95) -/

/-- Format A: `oooo aaaa aaaa aaaa`. -/
def formA (op : Nibble) (nnn : Addr12) : Word := op ++ nnn
/-- Format XK: `oooo xxxx kkkk kkkk`. -/
def formXK (op x : Nibble) (kk : Byte) : Word := op ++ (x ++ kk)
/-- Formats XY and XYN: `oooo xxxx yyyy nnnn`. -/
def formXYN (op x y n : Nibble) : Word := op ++ (x ++ (y ++ n))

/-- The encoder: the word of each instruction, from its row of R95. -/
def encode : Instr → Word
  | .cls => 0x00E0
  | .ret => 0x00EE
  | .jp nnn => formA 0x1 nnn
  | .call nnn => formA 0x2 nnn
  | .seImm x kk => formXK 0x3 x kk
  | .sneImm x kk => formXK 0x4 x kk
  | .seReg x y => formXYN 0x5 x y 0x0
  | .ldImm x kk => formXK 0x6 x kk
  | .addImm x kk => formXK 0x7 x kk
  | .ldReg x y => formXYN 0x8 x y 0x0
  | .orReg x y => formXYN 0x8 x y 0x1
  | .andReg x y => formXYN 0x8 x y 0x2
  | .xorReg x y => formXYN 0x8 x y 0x3
  | .addReg x y => formXYN 0x8 x y 0x4
  | .subReg x y => formXYN 0x8 x y 0x5
  | .shr x y => formXYN 0x8 x y 0x6
  | .subn x y => formXYN 0x8 x y 0x7
  | .shl x y => formXYN 0x8 x y 0xE
  | .sneReg x y => formXYN 0x9 x y 0x0
  | .ldI nnn => formA 0xA nnn
  | .jpV0 nnn => formA 0xB nnn
  | .rnd x kk => formXK 0xC x kk
  | .drw x y n => formXYN 0xD x y n
  | .skp x => formXK 0xE x 0x9E
  | .sknp x => formXK 0xE x 0xA1
  | .ldVDt x => formXK 0xF x 0x07
  | .ldVK x => formXK 0xF x 0x0A
  | .ldDt x => formXK 0xF x 0x15
  | .ldSt x => formXK 0xF x 0x18
  | .addI x => formXK 0xF x 0x1E
  | .ldF x => formXK 0xF x 0x29
  | .ldB x => formXK 0xF x 0x33
  | .ldMemV x => formXK 0xF x 0x55
  | .ldVMem x => formXK 0xF x 0x65

/-! ### The opcode map as match and mask (R95) -/

/-- The match column of an instruction's row of R95. -/
def rowMatch : Instr → Word
  | .cls => 0x00E0
  | .ret => 0x00EE
  | .jp _ => 0x1000
  | .call _ => 0x2000
  | .seImm _ _ => 0x3000
  | .sneImm _ _ => 0x4000
  | .seReg _ _ => 0x5000
  | .ldImm _ _ => 0x6000
  | .addImm _ _ => 0x7000
  | .ldReg _ _ => 0x8000
  | .orReg _ _ => 0x8001
  | .andReg _ _ => 0x8002
  | .xorReg _ _ => 0x8003
  | .addReg _ _ => 0x8004
  | .subReg _ _ => 0x8005
  | .shr _ _ => 0x8006
  | .subn _ _ => 0x8007
  | .shl _ _ => 0x800E
  | .sneReg _ _ => 0x9000
  | .ldI _ => 0xA000
  | .jpV0 _ => 0xB000
  | .rnd _ _ => 0xC000
  | .drw _ _ _ => 0xD000
  | .skp _ => 0xE09E
  | .sknp _ => 0xE0A1
  | .ldVDt _ => 0xF007
  | .ldVK _ => 0xF00A
  | .ldDt _ => 0xF015
  | .ldSt _ => 0xF018
  | .addI _ => 0xF01E
  | .ldF _ => 0xF029
  | .ldB _ => 0xF033
  | .ldMemV _ => 0xF055
  | .ldVMem _ => 0xF065

/-- The mask column of an instruction's row of R95, which its format fixes. -/
def rowMask : Instr → Word
  | .cls | .ret => 0xFFFF
  | .jp _ | .call _ | .seImm _ _ | .sneImm _ _ | .ldImm _ _ | .addImm _ _ | .ldI _ | .jpV0 _ | .rnd _ _
  | .drw _ _ _ => 0xF000
  | .seReg _ _ | .ldReg _ _ | .orReg _ _ | .andReg _ _ | .xorReg _ _ | .addReg _ _ | .subReg _ _ | .shr _ _
  | .subn _ _ | .shl _ _ | .sneReg _ _ => 0xF00F
  | .skp _ | .sknp _ | .ldVDt _ | .ldVK _ | .ldDt _ | .ldSt _ | .addI _ | .ldF _ | .ldB _ | .ldMemV _
  | .ldVMem _ => 0xF0FF

/-- One instruction of each row, in the table's order, its operands 0. -/
def rows : List Instr :=
  [.cls, .ret, .jp 0, .call 0, .seImm 0 0, .sneImm 0 0, .seReg 0 0, .ldImm 0 0, .addImm 0 0, .ldReg 0 0,
   .orReg 0 0, .andReg 0 0, .xorReg 0 0, .addReg 0 0, .subReg 0 0, .shr 0 0, .subn 0 0]
  ++ [.shl 0 0, .sneReg 0 0, .ldI 0, .jpV0 0, .rnd 0 0, .drw 0 0 0, .skp 0, .sknp 0, .ldVDt 0, .ldVK 0,
   .ldDt 0, .ldSt 0, .addI 0, .ldF 0, .ldB 0, .ldMemV 0, .ldVMem 0]

/-- A word matches the row of an instruction: its bits under the mask are the match (R95). -/
def matchesRow (w : Word) (row : Instr) : Bool := w &&& rowMask row == rowMatch row

/-- A word matches some row of R95; the unrecognized words are the others (R96). -/
def recognized (w : Word) : Bool := rows.any (matchesRow w)

end Sys2Proof
end

