-- ==== Sys2Proof/Config.lean ====
section
/-! DEFINITION. The named constants (spec/00_scope.md R4, R8), the parameters a machine is built with (R8), and the
free values: opaque constants with no body, which no proof can evaluate (spec/92_eei_decisions.md D17, D24, D27, D35). -/

namespace Sys2Proof

namespace Config

/-- MEM_SIZE: bytes of memory (R8). -/
def memSize : Nat := 4096
/-- ADDR_MAX: the highest byte address (R8). -/
def addrMax : Nat := memSize - 1
/-- PROG_BASE: the reset entry point and the base of the program image (R8, R373). -/
def progBase : Nat := 0x200
/-- PROG_MAX: the longest program image that is loaded (R8, R371). -/
def progMax : Nat := memSize - progBase
/-- NUM_V: general registers (R8, R21). -/
abbrev numV : Nat := 16
/-- STACK_DEPTH: entries of the stack (R8, R31). -/
abbrev stackDepth : Nat := 16
/-- FONT_BASE: where the glyph set begins (R8, R62). -/
abbrev fontBase : Nat := 0
/-- FONT_LEN: bytes of the glyph set (R8, R62). -/
abbrev fontLen : Nat := 80
/-- Bytes of one glyph: the multiplier of Fx29 (R4, R202). -/
def glyphLen : Nat := 5
/-- DISPLAY_W (R8). -/
abbrev displayW : Nat := 64
/-- DISPLAY_H (R8). -/
abbrev displayH : Nat := 32
/-- The highest stack index, STACK_DEPTH − 1: a CALL at this `sp` faults (R8, R32, R122). -/
def spMax : Nat := stackDepth - 1
/-- TIMER_HZ: nominal ticks per second; no rule depends on it (R8, R311, R383). -/
def timerHz : Nat := 60
/-- INSTR_RATE, lower end, instructions per second; no rule depends on it (R8, R383). -/
def instrRateMin : Nat := 10
/-- INSTR_RATE, upper end; no rule depends on it (R8, R383). -/
def instrRateMax : Nat := 1000

end Config

/-- FLAG_ORDER: which of the result and flag writes comes last (R8, R161, D9). -/
inductive FlagOrder where
  | flagLast
  | resultLast
  deriving DecidableEq, Repr

/-- STACK_GUARD; both values behave alike (R8, R28, R302). -/
inductive StackGuard where
  | unguarded
  | strict
  deriving DecidableEq, Repr

/-- TONE_SAMPLE_POINT: whether the tick tests ST before or after its decrement (R8, R310, D22). -/
inductive TonePoint where
  | beforeDecrement
  | afterDecrement
  deriving DecidableEq, Repr

/-- PIXEL_OFF and PIXEL_ON: two distinct 32-bit constants (R8, R251). A pair of equal constants is no term of this type, so
every state of every machine has distinct ones. -/
structure PixelPair where
  /-- PIXEL_OFF. -/
  off : BitVec 32
  /-- PIXEL_ON. -/
  on : BitVec 32
  /-- "They are distinct" (R251). -/
  distinct : (off != on) = true
  deriving DecidableEq, Repr

/-- The parameters of R8 as plain data: fixed for a machine, written by no operation. The machine carries them in
its state, so that a statement about every state holds for every choice of them (log 8). -/
structure Params where
  /-- FONT: the glyph bytes (R63). -/
  font : Vector Byte Config.fontLen
  /-- NO_KEY_CODE: the byte, if any, that compares equal to "no key" (R140). -/
  noKeyCode : Option Byte
  /-- FX0A_CONSUMES_KEY: whether Fx0A empties the mailbox (R233). -/
  fx0aConsumesKey : Bool
  /-- FLAG_ORDER (R161). -/
  flagOrder : FlagOrder
  /-- STACK_GUARD (R28). -/
  stackGuard : StackGuard
  /-- TONE_SAMPLE_POINT (R310). -/
  toneSamplePoint : TonePoint
  /-- AUDIO_AVAILABLE: whether the audio device was acquired (R328). -/
  audioAvailable : Bool
  /-- CAP: bytes of the ring buffer (R36). -/
  cap : Nat
  /-- SAMPLE_RATE, in Hz (R320). -/
  sampleRate : Nat
  /-- TONE_HZ (R320). -/
  toneHz : Nat
  /-- CHANNELS: how often a sample is written per frame (R322). -/
  channels : Nat
  /-- SAMPLE_BYTES: bytes of one sample of one channel (R322). -/
  sampleBytes : Nat
  /-- TONE_VOLUME (R321). -/
  toneVolume : Int
  /-- SILENCE_VALUE (R321). -/
  silenceValue : Int
  /-- ENCODE_SAMPLE, as far as it is given: sample values with their bytes, byte 0 first. What the table does not give is a
  free value (R8, R322; log 8). -/
  encodeTable : List (Int × List Byte)
  /-- PIXEL_OFF and PIXEL_ON (R251). -/
  pixels : PixelPair
  deriving DecidableEq, Repr

namespace Config

/-- FREE VALUE: the byte a memory address holds between the `boots`-th BOOT and the first store to it, where the spec
determines none (R40, R371, D17; log 3). -/
opaque memoryByte (boots address : Nat) : Byte

/-- FREE VALUE: the `n`-th random byte that Cxkk draws (R173, D35; log 4). -/
opaque randomByte (n : Nat) : Byte

/-- FREE VALUE: the `n`-th byte that an underrun PULL returns past the pending ones (R327, D27; log 5). -/
opaque underrunByte (n : Nat) : Byte

/-- FREE VALUE: what the ring buffer holds at an offset that Generate has not written (R40, D23; log 6). -/
opaque audioByte (offset : Nat) : Byte

/-- FREE VALUE: byte `j` of ENCODE_SAMPLE of a sample value, where the parameter's table does not give it (R8, R322, D24;
log 8). -/
opaque encodeSampleByte (sample : Int) (j : Nat) : Byte

/-- OPEN: FX0A_CONSUMES_KEY of the machine at reset (R8, D15; log 8). -/
opaque fx0aConsumesKey : Bool
/-- OPEN: AUDIO_AVAILABLE of the machine at reset (R8, D30; log 8). -/
opaque audioAvailable : Bool
/-- OPEN: CAP of the machine at reset (R8, D24; log 8). -/
opaque cap : Nat
/-- OPEN: SAMPLE_RATE of the machine at reset (R8, D24; log 8). -/
opaque sampleRate : Nat
/-- OPEN: TONE_HZ of the machine at reset (R8, D24; log 8). -/
opaque toneHz : Nat
/-- OPEN: CHANNELS of the machine at reset (R8, D24; log 8). -/
opaque channels : Nat
/-- OPEN: SAMPLE_BYTES of the machine at reset (R8, D24; log 8). -/
opaque sampleBytes : Nat
/-- OPEN: TONE_VOLUME of the machine at reset (R8, D24; log 8). -/
opaque toneVolume : Int
/-- OPEN: SILENCE_VALUE of the machine at reset (R8, D24; log 8). -/
opaque silenceValue : Int
/-- OPEN: PIXEL_OFF of the machine at reset (R8, D20; log 8). -/
opaque pixelOff : BitVec 32
/-- OPEN: PIXEL_ON of the machine at reset, as its distance from PIXEL_OFF less 1: every pair of distinct constants has one
(R8, R251, D20; log 8). -/
opaque pixelGap : Fin 4294967295

/-- A 32-bit constant and another at a distance of 1 to 2^32 - 1 from it are distinct. -/
theorem bne_add_gap (off : BitVec 32) (gap : Fin 4294967295) :
    (off != off + BitVec.ofNat 32 (gap.val + 1)) = true := by
  rw [bne_iff_ne]
  intro h
  have hgap := gap.isLt
  have hoff := off.isLt
  have := congrArg BitVec.toNat h
  rw [BitVec.toNat_add, BitVec.toNat_ofNat] at this
  omega

/-- PIXEL_OFF and PIXEL_ON of the machine at reset (log 8). -/
def resetPixels : PixelPair where
  off := pixelOff
  on := pixelOff + BitVec.ofNat 32 (pixelGap.val + 1)
  distinct := bne_add_gap pixelOff pixelGap

/-- The default of FONT, glyphs 0 to F, five bytes each (R63, general knowledge of the spec's own; log 7). -/
def defaultFont : Vector Byte fontLen := #v[
  0xF0, 0x90, 0x90, 0x90, 0xF0,
  0x20, 0x60, 0x20, 0x20, 0x70,
  0xF0, 0x10, 0xF0, 0x80, 0xF0,
  0xF0, 0x10, 0xF0, 0x10, 0xF0,
  0x90, 0x90, 0xF0, 0x10, 0x10,
  0xF0, 0x80, 0xF0, 0x10, 0xF0,
  0xF0, 0x80, 0xF0, 0x90, 0xF0,
  0xF0, 0x10, 0x20, 0x40, 0x40,
  0xF0, 0x90, 0xF0, 0x90, 0xF0,
  0xF0, 0x90, 0xF0, 0x10, 0xF0,
  0xF0, 0x90, 0xF0, 0x90, 0x90,
  0xE0, 0x90, 0xE0, 0x90, 0xE0,
  0xF0, 0x80, 0x80, 0x80, 0xF0,
  0xE0, 0x90, 0x90, 0x90, 0xE0,
  0xF0, 0x80, 0xF0, 0x80, 0xF0,
  0xF0, 0x80, 0xF0, 0x80, 0x80]

/-- The parameters of the machine at reset: the defaults of R8 where it gives one, an opaque constant where it gives
none (log 8). -/
def resetParams : Params where
  font := defaultFont
  noKeyCode := none
  fx0aConsumesKey := fx0aConsumesKey
  flagOrder := .flagLast
  stackGuard := .unguarded
  toneSamplePoint := .beforeDecrement
  audioAvailable := audioAvailable
  cap := cap
  sampleRate := sampleRate
  toneHz := toneHz
  channels := channels
  sampleBytes := sampleBytes
  toneVolume := toneVolume
  silenceValue := silenceValue
  encodeTable := []
  pixels := resetPixels

end Config

namespace Params

/-- PIXEL_OFF (R251). -/
def pixelOff (p : Params) : BitVec 32 := p.pixels.off

/-- PIXEL_ON (R251). -/
def pixelOn (p : Params) : BitVec 32 := p.pixels.on

/-- FRAME_BYTES = CHANNELS · SAMPLE_BYTES (R320). -/
def frameBytes (p : Params) : Nat := p.channels * p.sampleBytes

/-- HALF_PERIOD = (SAMPLE_RATE div TONE_HZ) div 2 (R320, D25). -/
def halfPeriod (p : Params) : Nat := p.sampleRate / p.toneHz / 2

end Params

end Sys2Proof
end

