-- ==== Sys2Proof/WellFormed.lean ====
section
/-! DEFINITION. What is checked of the data a machine is built with. An instruction needs no check: each operand field
of Instr is exactly as wide as spec/30_encoding.md R91 makes it, so every term of Instr is the reading of some word.
A machine's parameters do: spec/60_exceptions.md R304 and R320 refuse a configuration with a zero capacity, channel
count, sample width, rate or half period (BadAudioConfig), and spec/46_display.md R251 makes the two pixel constants
distinct, which a PixelPair holds by its type. -/

namespace Sys2Proof

namespace Params

/-- No BadAudioConfig: every one of the quantities of R320 is at least 1. -/
def audioWellFormed (p : Params) : Bool :=
  p.cap != 0 && p.channels != 0 && p.sampleBytes != 0 && p.sampleRate != 0 && p.toneHz != 0 && p.halfPeriod != 0

end Params

/-- The pair of two pixel constants, refused when they are equal (R8, R251). -/
def PixelPair.make (off on : BitVec 32) : Option PixelPair :=
  if h : (off != on) = true then some ⟨off, on, h⟩ else none

end Sys2Proof
end

