-- ==== Sys2Proof/Machine/State.lean ====
section
/-! DEFINITION. The machine's state as plain data (spec/10_state.md R20 and the rules it gathers), the reasons a step
stops (spec/60_exceptions.md R301, R304), the operations of the host interface (R335), and the state at construction and
after reset (spec/10_state.md R40, spec/70_reset_and_hazards.md R370, R371). -/

namespace Sys2Proof.Machine

/-- A model-level fault of R301: its constructor is the code, its argument the recorded info. An instruction (or a fetch)
that raises one TAKES it: a next state whose `fault` field records it and in which nothing else has changed (R302). The
same value is then what a further STEP of the faulted machine answers as its outcome `.fault`, since there is no such
step. Safe: the reference is undefined at each of these conditions. -/
inductive Fault where
  /-- Code 1, raised by the fetch of any STEP with pc > 0xFFE; info: pc. Safe. -/
  | fetchOutOfRange (pc : Word)
  /-- Code 2, raised by Dxyn (n > 0), Fx33, Fx55, Fx65 for an address above 0xFFF; info: the lowest such address. Safe. -/
  | memOutOfRange (address : Word)
  /-- Code 3, raised by 2nnn at sp = 15; info: the CALL's address. Safe. -/
  | stackOverflow (ia : Word)
  /-- Code 4, raised by 00EE at sp = 0; info: the RET's address. Safe. -/
  | stackUnderflow (ia : Word)
  deriving DecidableEq, Repr

/-- Why an operation has no transition (R304): a refusal records no fault and changes nothing. -/
inductive Refusal where
  /-- An arm of exec that has no meaning yet. Safe. -/
  | notModelled (mnemonic : String)
  /-- STEP or TICK before the first BOOT (R304, D21). Safe. -/
  | notBooted
  /-- PULL of more than CAP bytes (R304, R326, D28). Safe. -/
  | pullTooLarge (req : Nat)
  /-- TICK or PULL of a machine whose audio configuration R320 refuses (R304, D25). Safe. -/
  | badAudioConfig
  /-- PULL without an audio device: it has no step (R326, R328, D30). Safe. -/
  | audioUnavailable
  /-- STEP after FINISH: the emulation activity issues none (R337, D36). Safe. -/
  | finished
  deriving DecidableEq, Repr

/-- A display cell: PIXEL_OFF or PIXEL_ON; the 32-bit constants are applied at OBSERVE (R35, R251, D42). -/
inductive Pixel where
  | off
  | on
  deriving DecidableEq, Repr

/-- The framebuffer `display[row][col]`, DISPLAY_H rows of DISPLAY_W cells (R35, R250). -/
abbrev Display := Vector (Vector Pixel Config.displayW) Config.displayH

/-- A row of the display. -/
abbrev Row := Fin Config.displayH

/-- A column of the display. -/
abbrev Col := Fin Config.displayW

/-- An index of the stack, and what `sp` holds (R31, R32). -/
abbrev StackIndex := Fin Config.stackDepth

/-- Memory: the bytes that are determined otherwise than by construction or a boot's draws, by address (R34). -/
abbrev Memory := List Host.Cell

/-- The audio ring buffer engine's state (R36). -/
structure Audio where
  /-- `data`, by offset: the bytes Generate has written; an unlisted offset holds a construction draw (R40). -/
  data : List Host.Cell
  /-- `play_cursor`. -/
  playCursor : Nat
  /-- `write_cursor`. -/
  writeCursor : Nat
  /-- `length`: bytes pending. -/
  length : Nat
  /-- `running_sample_index`, unbounded (D29). -/
  runningSampleIndex : Nat
  /-- `audio_overrun`, sticky (R323). -/
  overrun : Bool
  /-- `audio_underrun`, sticky (R327). -/
  underrun : Bool
  deriving DecidableEq, Repr

/-- The operations of the transaction-level interface (R335). -/
inductive HostOp where
  /-- STEP: the interpreter executes one instruction (R101). -/
  | step
  /-- TICK(k): the timer driver ticks, generating `k` frames (R310, R325). -/
  | tick (k : Nat)
  /-- PULL(req): the audio consumer takes `req` bytes (R326). -/
  | pull (req : Nat)
  /-- SET_KEY(v) (R330). -/
  | setKey (v : Option Nibble)
  /-- SET_QUIRKS(s, i) (R335). -/
  | setQuirks (shift index : Bool)
  /-- BOOT(image) (R371). -/
  | boot (image : List Byte)
  /-- OBSERVE (R335, R339). -/
  | observe
  /-- FINISH (R337). -/
  | finish
  deriving DecidableEq, Repr

/-- The state: the record of R20, the machine's parameters (R8), and five fields of the model's own (the last five). -/
structure State where
  /-- The parameters of R8, which no operation writes (log 8). -/
  cfg : Params
  /-- `V[0..15]` (R21); VF is `V[15]` (R22, R25). -/
  v : Vector Byte Config.numV
  /-- `I`, all 16 bits (R30). -/
  i : Word
  /-- `pc` (R23). -/
  pc : Word
  /-- `sp`, 0 to 15 (R32). -/
  sp : StackIndex
  /-- `stack[0..15]` (R31). -/
  stack : Vector Word Config.stackDepth
  /-- `DT` (R33). -/
  dt : Byte
  /-- `ST` (R33). -/
  st : Byte
  /-- `mem` (R34): the cells that differ from what an unlisted address reads as (Ops, `memoryKnown`; log 3). -/
  mem : Memory
  /-- `display` (R35). -/
  display : Display
  /-- `key_pressed` (R29). -/
  key : Option Nibble
  /-- `shift_quirk` (R26). -/
  shiftQuirk : Bool
  /-- `index_quirk` (R27). -/
  indexQuirk : Bool
  /-- `booted` (R20). -/
  booted : Bool
  /-- `fault`: the recorded fault, sticky (R302). -/
  fault : Option Fault
  /-- The audio ring buffer engine (R36). -/
  audio : Audio
  /-- The model's own: how many BOOTs there have been, the index of memory's free values (log 3). -/
  boots : Nat
  /-- The model's own: how many random bytes Cxkk has drawn (log 4). -/
  randomDraws : Nat
  /-- The model's own: how many underrun bytes PULL has drawn (log 5). -/
  underrunDraws : Nat
  /-- The model's own: the operations that come next, in order; when it is empty the interpreter steps (log 9). -/
  schedule : List HostOp
  /-- The model's own: the emulation activity has observed FINISH (R337; log 10). -/
  finished : Bool
  deriving DecidableEq, Repr

/-- What a step, or a meaning, answers. -/
abbrev Result := Host.Outcome State Fault Refusal

/-- The audio state at construction (R40, D23). -/
def Audio.constructed : Audio where
  data := []
  playCursor := 0
  writeCursor := 0
  length := 0
  runningSampleIndex := 0
  overrun := false
  underrun := false

/-- The machine as constructed with parameters `p`, before any BOOT (R370, the first column of R40). The registers, the
stack, the timers and the display are unspecified there and no rule reads them before the first BOOT; they are 0 and
off here (log 2). -/
def State.constructed (p : Params) : State where
  cfg := p
  v := Vector.replicate Config.numV 0
  i := 0
  pc := 0
  sp := 0
  stack := Vector.replicate Config.stackDepth 0
  dt := 0
  st := 0
  mem := []
  display := Vector.replicate Config.displayH (Vector.replicate Config.displayW .off)
  key := none
  shiftQuirk := false
  indexQuirk := false
  booted := false
  fault := none
  audio := Audio.constructed
  boots := 0
  randomDraws := 0
  underrunDraws := 0
  schedule := []
  finished := false

/-- The machine right after reset: BOOT of an empty image on a constructed machine, the second column of R40 (R371, R372;
logs 1 and 8). -/
def State.reset : State where
  cfg := Config.resetParams
  v := Vector.replicate Config.numV 0
  i := 0
  pc := BitVec.ofNat 16 Config.progBase
  sp := 0
  stack := Vector.replicate Config.stackDepth 0
  dt := 0
  st := 0
  mem := []
  display := Vector.replicate Config.displayH (Vector.replicate Config.displayW .off)
  key := none
  shiftQuirk := false
  indexQuirk := false
  booted := true
  fault := none
  audio := Audio.constructed
  boots := 1
  randomDraws := 0
  underrunDraws := 0
  schedule := []
  finished := false

end Sys2Proof.Machine
end

