-- ==== Sys2Proof/Machine/Ops.lean ====
section
/-! DEFINITION. The named operations over the state: cell lists, memory, registers, stack, display cells, the fetch, and
TAKING A FAULT as one shared operation (spec/00_scope.md R11, spec/20_memory.md, spec/60_exceptions.md R302). -/

namespace Sys2Proof.Machine

/-! ### Cell lists: finite maps from addresses to bytes, addresses strictly rising -/

/-- The byte listed at an address, if one is. -/
def cellLookup : List Host.Cell → Nat → Option Byte
  | [], _ => none
  | (k, b) :: rest, a => if k = a then some b else cellLookup rest a

/-- List a byte at an address, in place of the one listed there if there is one. -/
def cellInsert : List Host.Cell → Nat → Byte → List Host.Cell
  | [], a, b => [(a, b)]
  | (k, c) :: rest, a, b =>
    if a < k then (a, b) :: (k, c) :: rest
    else if a = k then (a, b) :: rest
    else (k, c) :: cellInsert rest a b

/-- List no byte at an address. -/
def cellErase : List Host.Cell → Nat → List Host.Cell
  | [], _ => []
  | (k, c) :: rest, a => if k = a then rest else (k, c) :: cellErase rest a

/-- Consecutive cells from an address on, one for each byte. -/
def cellsFrom : Nat → List Byte → List Host.Cell
  | _, [] => []
  | a, b :: bs => (a, b) :: cellsFrom (a + 1) bs

/-- The addresses of a cell list rise strictly. -/
abbrev cellsRising (m : List Host.Cell) : Prop := m.Pairwise (fun p q => p.1 < q.1)

/-! ### Memory (R34, R40, R60, R68) -/

/-- The address lies in the glyph set, 0x000–0x04F (R62). -/
def inFont (a : Nat) : Bool := decide (Config.fontBase ≤ a ∧ a < Config.fontBase + Config.fontLen)

/-- What construction determines of an address: the glyph set's byte; nothing elsewhere (R40, R62). -/
def memoryKnown (font : Vector Byte Config.fontLen) (a : Nat) : Option Byte :=
  if inFont a then font[a - Config.fontBase]? else none

/-- WHAT AN UNLISTED ADDRESS READS AS: the glyph byte, or else the free value that construction or the latest BOOT drew
for it (R40, D17; log 3). -/
def memoryUnlisted (font : Vector Byte Config.fontLen) (boots a : Nat) : Byte :=
  (memoryKnown font a).getD (Config.memoryByte boots a)

/-- A byte of memory: the one last written, or its initial value (R68). -/
def memoryRead (font : Vector Byte Config.fontLen) (boots : Nat) (m : Memory) (a : Nat) : Byte :=
  (cellLookup m a).getD (memoryUnlisted font boots a)

/-- Writing a byte keeps the canonical form: a glyph byte written back to its place is not listed (log 3). -/
def memoryWrite (font : Vector Byte Config.fontLen) (m : Memory) (a : Nat) (b : Byte) : Memory :=
  if memoryKnown font a = some b then cellErase m a else cellInsert m a b

/-- The canonical form of memory: addresses strictly rising, all below 4096, and no entry equal to what construction
determines of its address (log 3). -/
abbrev Memory.wf (font : Vector Byte Config.fontLen) (m : Memory) : Prop :=
  cellsRising m ∧ ∀ c ∈ m, c.1 < Config.memSize ∧ memoryKnown font c.1 ≠ some c.2

/-- MemRead (R11). -/
def State.readByte (s : State) (a : Nat) : Byte := memoryRead s.cfg.font s.boots s.mem a

/-- MemWrite (R11). -/
def State.writeByte (s : State) (a : Nat) (b : Byte) : State :=
  { s with mem := memoryWrite s.cfg.font s.mem a b }

/-- Bytes written one after the other at ascending addresses (R203, R204). -/
def writeBytes : Nat → List Byte → State → State
  | _, [], s => s
  | a, b :: bs, s => writeBytes (a + 1) bs (s.writeByte a b)

/-! ### Registers (R11, R21, R30 to R33) -/

/-- V[x]. -/
def State.getV (s : State) (x : Nibble) : Byte := s.v[x.toNat]'x.isLt

/-- V[x] <- b. -/
def State.setV (s : State) (x : Nibble) (b : Byte) : State := { s with v := s.v.set x.toNat b x.isLt }

/-- V[F] <- b: writing the flag register (R22). -/
def State.setVF (s : State) (b : Byte) : State := s.setV 0xF b

/-- I <- w. -/
def State.setI (s : State) (w : Word) : State := { s with i := w }

/-- pc <- w. -/
def State.setPc (s : State) (w : Word) : State := { s with pc := w }

/-- DT <- b. -/
def State.setDt (s : State) (b : Byte) : State := { s with dt := b }

/-- ST <- b. -/
def State.setSt (s : State) (b : Byte) : State := { s with st := b }

/-- key_pressed <- k. -/
def State.setKey (s : State) (k : Option Nibble) : State := { s with key := k }

/-- display <- d. -/
def State.setDisplay (s : State) (d : Display) : State := { s with display := d }

/-- The state after a random byte has been drawn (R173; log 4). -/
def State.countRandom (s : State) : State := { s with randomDraws := s.randomDraws + 1 }

/-- V[0], V[1], … loaded from ascending addresses: the first `n` registers (R205). -/
def loadRegs (base : Nat) : Nat → State → State
  | 0, s => s
  | n + 1, s => (loadRegs base n s).setV (BitVec.ofNat 4 n) (s.readByte (base + n))

/-! ### The stack (R31, R32) -/

/-- stack[j]. -/
def State.getStack (s : State) (j : StackIndex) : Word := s.stack[j.val]'j.isLt

/-- sp <- sp + 1; stack[sp] <- w, of a stack that is not full (R122). -/
def State.push (s : State) (w : Word) (h : s.sp.val < Config.spMax) : State :=
  { s with sp := ⟨s.sp.val + 1, Nat.succ_lt_succ h⟩, stack := s.stack.set (s.sp.val + 1) w (Nat.succ_lt_succ h) }

/-- sp <- sp − 1, of a stack that is not empty (R120); the entry is not cleared. -/
def State.pop (s : State) : State :=
  { s with sp := ⟨s.sp.val - 1, Nat.lt_of_le_of_lt (Nat.sub_le _ _) s.sp.isLt⟩ }

/-! ### Faults (R301, R302) -/

/-- The code of a fault (R301). -/
def faultCode : Fault → Nat
  | .fetchOutOfRange _ => 1
  | .memOutOfRange _ => 2
  | .stackOverflow _ => 3
  | .stackUnderflow _ => 4

/-- The info a fault records (R301). -/
def faultInfo : Fault → Word
  | .fetchOutOfRange pc => pc
  | .memOutOfRange a => a
  | .stackOverflow ia => ia
  | .stackUnderflow ia => ia

/-- Fault entry: `fault <- some (code, info)` and nothing else (R302). -/
def State.recordFault (s : State) (f : Fault) : State := { s with fault := some f }

/-- `ia`, the address of the executing instruction: the prelude has advanced `pc` past it (R23, R101). -/
def State.ia (s : State) : Word := s.pc - 2

/-- TAKING A FAULT inside an instruction: the state before the step, `pc` at `ia`, with the fault recorded (R302; log 11).
No instruction has written anything yet when it calls this (R11). -/
def takeFault (s : State) (f : Fault) : Result := .next ((s.setPc s.ia).recordFault f)

/-! ### The fetch (R64, R101) -/

/-- Byte pc + 1 would lie above 0xFFF (R101). -/
def State.fetchFaults (s : State) : Bool := decide (s.pc.toNat > Config.addrMax - 1)

/-- The word at pc, big-endian (R64). -/
def State.fetchWord (s : State) : Word := wordOfBytes (s.readByte s.pc.toNat) (s.readByte (s.pc.toNat + 1))

/-- pc <- trunc_16(pc + 2), right after the fetch (R101). -/
def State.advance (s : State) : State := s.setPc (s.pc + 2)

/-- An instruction word stored at `pc` as the hardware stores it: what withFetchWord places (R64). -/
def State.placeWord (s : State) (w : Word) : State :=
  writeBytes s.pc.toNat [highByte w, lowByte w] s

/-- `pc` if a word can be fetched there, else the reset entry point (log 1). -/
def State.fetchablePc (s : State) : Word := if s.fetchFaults then BitVec.ofNat 16 Config.progBase else s.pc

/-! ### The display (R250, R251) -/

/-- display[row][col]. -/
def Display.get (d : Display) (row : Row) (col : Col) : Pixel := (d[row.val]'row.isLt)[col.val]'col.isLt

/-- display[row][col] <- p. -/
def Display.put (d : Display) (row : Row) (col : Col) (p : Pixel) : Display :=
  d.set row.val ((d[row.val]'row.isLt).set col.val p col.isLt) row.isLt

/-- Every cell PIXEL_OFF (R253, R371). -/
def Display.clear : Display := Vector.replicate Config.displayH (Vector.replicate Config.displayW .off)

end Sys2Proof.Machine
end

