-- ==== Sys2Proof/Machine/Flags.lean ====
section
/-! DEFINITION. The flag computations and the order of result and flag writes (spec/43_alu.md R160, R161;
spec/44_index_memory.md R201). VF is the only flag (spec/10_state.md R25). -/

namespace Sys2Proof.Machine

/-- A flag as the byte VF receives: 1 or 0. -/
def flagByte (f : Bool) : Byte := if f then 1 else 0

/-- The carry of an addition: the unreduced sum exceeds 255 (R160, R168). -/
def carryOf (a b : Byte) : Bool := decide (a.toNat + b.toNat > 255)

/-- No borrow of a − b: a ≥ b (R160, R169, R171). -/
def noBorrow (a b : Byte) : Bool := decide (a.toNat ≥ b.toNat)

/-- The bit a right shift by one shifts out: bit 0 (R170). -/
def lowBit (a : Byte) : Byte := a &&& 1

/-- The bit a left shift by one shifts out: bit 7 (R172). -/
def highBit (a : Byte) : Byte := a >>> 7

/-- The overflow of Fx1E: the unmasked sum exceeds 0xFFF (R201). -/
def indexOverflow (i : Word) (b : Byte) : Bool := decide (i.toNat + b.toNat > Config.addrMax)

/-- WriteRF(x, r, f): both writes in FLAG_ORDER (R161, D9). -/
def writeRF (s : State) (x : Nibble) (r f : Byte) : State :=
  match s.cfg.flagOrder with
  | .flagLast => (s.setV x r).setVF f
  | .resultLast => (s.setVF f).setV x r

end Sys2Proof.Machine
end

