-- ==== Sys2Proof/Machine/Operands.lean ====
section
/-! DEFINITION. The operand forms (spec/30_encoding.md R92, R93; spec/44_index_memory.md; spec/43_alu.md R170, R172;
spec/42_skips.md R140, R141). -/

namespace Sys2Proof.Machine

/-- nnn, zero-extended to 16 bits (R92). -/
def addrWord (nnn : Addr12) : Word := nnn.setWidth 16

/-- A register's value, zero-extended to 16 bits (R201, R202). -/
def byteWord (b : Byte) : Word := b.setWidth 16

/-- The 12-bit mask of Bnnn, Fx1E and Fx29: ADDR_MAX (R123, R201, R202). -/
def addrMask : Word := BitVec.ofNat 16 Config.addrMax

/-- A key as a register value (R140, R233). -/
def keyByte (k : Nibble) : Byte := k.setWidth 8

/-- V[0..x] in ascending order (R204). -/
def State.regsUpTo (s : State) (x : Nibble) : List Byte := s.v.toList.take (x.toNat + 1)

/-- The source register of a shift: V[y] under shift_quirk, V[x] otherwise (R170, R172). -/
def State.shiftSource (s : State) (x y : Nibble) : Byte := if s.shiftQuirk then s.getV y else s.getV x

/-- The memory operand at I: some byte of the `n` bytes from I on lies above 0xFFF; no byte does when `n` is 0
(R67, R203 to R205, R254). -/
def State.rangeFaults (s : State) (n : Nat) : Bool := decide (n > 0 ∧ s.i.toNat + n - 1 > Config.addrMax)

/-- The lowest address above 0xFFF that an access from I on touches: max(I, 0x1000) (R67). -/
def State.lowestOut (s : State) : Word := BitVec.ofNat 16 (max s.i.toNat Config.memSize)

/-- An instruction over the `n` bytes from I on: the range check first, then its effect (R67, D6). -/
def withRange (s : State) (n : Nat) (effect : Result) : Result :=
  if s.rangeFaults n then takeFault s (.memOutOfRange s.lowestOut) else effect

/-- The quirk increment of Fx55 and Fx65: I <- trunc_16(I + x + 1), unmasked, under index_quirk (R204, R205, D13). -/
def State.advanceI (s : State) (x : Nibble) : State :=
  if s.indexQuirk then s.setI (s.i + x.setWidth 16 + 1) else s

/-- KeyEq(v): the comparison of the mailbox with a register's value (R140). -/
def State.keyEq (s : State) (b : Byte) : Bool :=
  match s.key with
  | some k => keyByte k == b
  | none => s.cfg.noKeyCode == some b

/-- Skip() when the predicate holds (R141). -/
def skipIf (s : State) (holds : Bool) : Result := .next (if holds then s.setPc (s.pc + 2) else s)

end Sys2Proof.Machine
end

