-- ==== Sys2Proof/Machine/Alu.lean ====
section
/-! DEFINITION. Register arithmetic and logic (spec/43_alu.md R160 to R173), after the prelude (log 16). The operands are
the register values at the start of the instruction (spec/00_scope.md R12). -/

namespace Sys2Proof.Machine

/-- LD Vx, kk (R162). -/
def execLdImm (x : Nibble) (kk : Byte) (s : State) : Result := .next (s.setV x kk)

/-- ADD Vx, kk (R163): no flag (D12). -/
def execAddImm (x : Nibble) (kk : Byte) (s : State) : Result := .next (s.setV x (s.getV x + kk))

/-- LD Vx, Vy (R164). -/
def execLdReg (x y : Nibble) (s : State) : Result := .next (s.setV x (s.getV y))

/-- OR Vx, Vy (R165): no flag (D11). -/
def execOrReg (x y : Nibble) (s : State) : Result := .next (s.setV x (s.getV x ||| s.getV y))

/-- AND Vx, Vy (R166): no flag (D11). -/
def execAndReg (x y : Nibble) (s : State) : Result := .next (s.setV x (s.getV x &&& s.getV y))

/-- XOR Vx, Vy (R167): no flag (D11). -/
def execXorReg (x y : Nibble) (s : State) : Result := .next (s.setV x (s.getV x ^^^ s.getV y))

/-- ADD Vx, Vy (R168): the sum mod 256, VF the carry. -/
def execAddReg (x y : Nibble) (s : State) : Result :=
  .next (writeRF s x (s.getV x + s.getV y) (flagByte (carryOf (s.getV x) (s.getV y))))

/-- SUB Vx, Vy (R169): vx − vy mod 256, VF no borrow. -/
def execSubReg (x y : Nibble) (s : State) : Result :=
  .next (writeRF s x (s.getV x - s.getV y) (flagByte (noBorrow (s.getV x) (s.getV y))))

/-- SHR Vx (R170): the source shifted right by one, VF its bit 0. -/
def execShr (x y : Nibble) (s : State) : Result :=
  .next (writeRF s x (s.shiftSource x y >>> 1) (lowBit (s.shiftSource x y)))

/-- SUBN Vx, Vy (R171): vy − vx mod 256, VF no borrow. -/
def execSubn (x y : Nibble) (s : State) : Result :=
  .next (writeRF s x (s.getV y - s.getV x) (flagByte (noBorrow (s.getV y) (s.getV x))))

/-- SHL Vx (R172): the source shifted left by one, VF its bit 7. -/
def execShl (x y : Nibble) (s : State) : Result :=
  .next (writeRF s x (s.shiftSource x y <<< 1) (highBit (s.shiftSource x y)))

/-- RND Vx, kk (R173): a free byte masked by kk (log 4). -/
def execRnd (x : Nibble) (kk : Byte) (s : State) : Result :=
  .next (s.countRandom.setV x (Config.randomByte s.randomDraws &&& kk))

end Sys2Proof.Machine
end

