-- ==== Sys2Proof/Machine/Control.lean ====
section
/-! DEFINITION. Control transfer (spec/41_control_flow.md R120 to R124). Every meaning starts after the prelude of
spec/30_encoding.md R101: `pc` already holds the instruction's address plus 2 (log 16). -/

namespace Sys2Proof.Machine

/-- RET (R120): at sp = 0 StackUnderflow(ia); else pc <- stack[sp], sp <- sp − 1. -/
def execRet (s : State) : Result :=
  if s.sp.val = 0 then takeFault s (.stackUnderflow s.ia)
  else .next (s.pop.setPc (s.getStack s.sp))

/-- JP nnn (R121). -/
def execJp (nnn : Addr12) (s : State) : Result := .next (s.setPc (addrWord nnn))

/-- CALL nnn (R122): at sp = 15 StackOverflow(ia); else sp <- sp + 1, stack[sp] <- pc, pc <- nnn. -/
def execCall (nnn : Addr12) (s : State) : Result :=
  if h : s.sp.val < Config.spMax then .next ((s.push s.pc h).setPc (addrWord nnn))
  else takeFault s (.stackOverflow s.ia)

/-- JP V0, nnn (R123): pc <- (nnn + V0) & 0xFFF. -/
def execJpV0 (nnn : Addr12) (s : State) : Result :=
  .next (s.setPc ((addrWord nnn + byteWord (s.getV 0)) &&& addrMask))

/-- An unrecognized word (spec/30_encoding.md R96): a no-op after the fetch advance. -/
def execUnrecognized (s : State) : Result := .next s

end Sys2Proof.Machine
end

