-- ==== Sys2Proof/Machine/Index.lean ====
section
/-! DEFINITION. The index register and memory (spec/44_index_memory.md R200 to R206), after the prelude (log 16). Each
writer of I has its own masking (R206). -/

namespace Sys2Proof.Machine

/-- LD I, nnn (R200). -/
def execLdI (nnn : Addr12) (s : State) : Result := .next (s.setI (addrWord nnn))

/-- ADD I, Vx (R201): the sum masked to 12 bits, VF whether the unmasked sum exceeds 0xFFF. -/
def execAddI (x : Nibble) (s : State) : Result :=
  .next ((s.setI ((s.i + byteWord (s.getV x)) &&& addrMask)).setVF (flagByte (indexOverflow s.i (s.getV x))))

/-- LD F, Vx (R202): I <- (vx · 5) & 0xFFF. -/
def execLdF (x : Nibble) (s : State) : Result :=
  .next (s.setI ((byteWord (s.getV x) * BitVec.ofNat 16 Config.glyphLen) &&& addrMask))

/-- The decimal digits of a byte: hundreds, tens, units (R203). -/
def bcdDigits (b : Byte) : List Byte :=
  [BitVec.ofNat 8 (b.toNat / 100), BitVec.ofNat 8 (b.toNat / 10 % 10), BitVec.ofNat 8 (b.toNat % 10)]

/-- LD B, Vx (R203). -/
def execLdB (x : Nibble) (s : State) : Result :=
  withRange s 3 (.next (writeBytes s.i.toNat (bcdDigits (s.getV x)) s))

/-- LD [I], Vx (R204): V0..Vx to memory, then I under index_quirk. -/
def execLdMemV (x : Nibble) (s : State) : Result :=
  withRange s (x.toNat + 1) (.next ((writeBytes s.i.toNat (s.regsUpTo x) s).advanceI x))

/-- LD Vx, [I] (R205): V0..Vx from memory, then I under index_quirk. -/
def execLdVMem (x : Nibble) (s : State) : Result :=
  withRange s (x.toNat + 1) (.next ((loadRegs s.i.toNat (x.toNat + 1) s).advanceI x))

end Sys2Proof.Machine
end

