-- ==== Sys2Proof/Machine/Pixels.lean ====
section
/-! DEFINITION. The framebuffer pixel engine (spec/46_display.md R250 to R256), after the prelude (log 16). -/

namespace Sys2Proof.Machine

/-- The row a pixel's row number wraps to (R254). -/
def wrapRow (r : Nat) : Row := ⟨r % Config.displayH, Nat.mod_lt _ (by decide)⟩

/-- The column a pixel's column number wraps to (R254). -/
def wrapCol (c : Nat) : Col := ⟨c % Config.displayW, Nat.mod_lt _ (by decide)⟩

/-- The display while a sprite is drawn, and whether a set bit has met an "on" pixel so far. -/
abbrev Drawing := Display × Bool

/-- A set sprite bit on a cell: "on" goes off and collides, "off" goes on (R254). -/
def flipPixel (d : Drawing) (row : Row) (col : Col) : Drawing :=
  match Display.get d.1 row col with
  | .off => (Display.put d.1 row col .on, d.2)
  | .on => (Display.put d.1 row col .off, true)

/-- Bit c of a sprite byte, counted from the most significant: b[7 − c] (R254). -/
def spriteBit (b : Byte) (c : Nat) : Bool := b.getLsbD (7 - c)

/-- Column c of a sprite row (R254). -/
def drawBit (b : Byte) (row : Row) (x0 : Nat) (d : Drawing) (c : Nat) : Drawing :=
  if spriteBit b c then flipPixel d row (wrapCol (x0 + c)) else d

/-- One sprite row: its eight bits, most significant first (R254). -/
def drawRow (b : Byte) (row : Row) (x0 : Nat) (d : Drawing) : Drawing :=
  (List.range 8).foldl (drawBit b row x0) d

/-- A sprite of `n` rows, top row first; row r is the byte at I + r (R254). -/
def State.drawSprite (s : State) (x0 y0 n : Nat) : Drawing :=
  (List.range n).foldl (fun d r => drawRow (s.readByte (s.i.toNat + r)) (wrapRow (y0 + r)) x0 d) (s.display, false)

/-- CLS (R253). -/
def execCls (s : State) : Result := .next (s.setDisplay Display.clear)

/-- DRW Vx, Vy, n (R254): the sprite drawn at the old V[x], V[y], then VF the collision, also when n = 0. -/
def execDrw (x y n : Nibble) (s : State) : Result :=
  let drawn := s.drawSprite (s.getV x).toNat (s.getV y).toNat n.toNat
  withRange s n.toNat (.next ((s.setDisplay drawn.1).setVF (flagByte drawn.2)))

end Sys2Proof.Machine
end

