-- ==== Sys2Proof/Machine/Skips.lean ====
section
/-! DEFINITION. Conditional skips (spec/42_skips.md R140 to R147), after the prelude (log 16). -/

namespace Sys2Proof.Machine

/-- SE Vx, kk (R142). -/
def execSeImm (x : Nibble) (kk : Byte) (s : State) : Result := skipIf s (s.getV x == kk)

/-- SNE Vx, kk (R143). -/
def execSneImm (x : Nibble) (kk : Byte) (s : State) : Result := skipIf s (s.getV x != kk)

/-- SE Vx, Vy (R144). -/
def execSeReg (x y : Nibble) (s : State) : Result := skipIf s (s.getV x == s.getV y)

/-- SNE Vx, Vy (R145). -/
def execSneReg (x y : Nibble) (s : State) : Result := skipIf s (s.getV x != s.getV y)

/-- SKP Vx (R146). -/
def execSkp (x : Nibble) (s : State) : Result := skipIf s (s.keyEq (s.getV x))

/-- SKNP Vx (R147). -/
def execSknp (x : Nibble) (s : State) : Result := skipIf s (!s.keyEq (s.getV x))

end Sys2Proof.Machine
end

