-- ==== Sys2Proof/Machine/Timers.lean ====
section
/-! DEFINITION. The timer and key instructions (spec/45_timers_keys.md R230 to R233), after the prelude (log 16). -/

namespace Sys2Proof.Machine

/-- LD Vx, DT (R230). -/
def execLdVDt (x : Nibble) (s : State) : Result := .next (s.setV x s.dt)

/-- LD DT, Vx (R231). -/
def execLdDt (x : Nibble) (s : State) : Result := .next (s.setDt (s.getV x))

/-- LD ST, Vx (R232). -/
def execLdSt (x : Nibble) (s : State) : Result := .next (s.setSt (s.getV x))

/-- The mailbox after Fx0A has taken the key: emptied when FX0A_CONSUMES_KEY (R233, D15). -/
def State.consumeKey (s : State) : State := if s.cfg.fx0aConsumesKey then s.setKey none else s

/-- LD Vx, K (R233): the pressed key into V[x], or else pc back to ia, so that the next STEP repeats the instruction. -/
def execLdVK (x : Nibble) (s : State) : Result :=
  match s.key with
  | some k => .next ((s.setV x (keyByte k)).consumeKey)
  | none => .next (s.setPc (s.pc - 2))

end Sys2Proof.Machine
end

