-- ==== Sys2Proof/Machine/Sound.lean ====
section
/-! DEFINITION. The audio ring buffer engine (spec/60_exceptions.md R320 to R331). -/

namespace Sys2Proof.Machine

/-- SampleValue(play, idx) (R321). -/
def sampleValue (p : Params) (play : Bool) (idx : Nat) : Int :=
  if play && (idx / p.halfPeriod) % 2 == 1 then p.toneVolume else p.silenceValue

/-- ENCODE_SAMPLE: SAMPLE_BYTES bytes, byte 0 first, each the parameter's or, where its table gives none, a free value
(R322; log 8). -/
def encodeSample (p : Params) (sample : Int) : List Byte :=
  let given := (p.encodeTable.lookup sample).getD []
  (List.range p.sampleBytes).map (fun j => (given[j]?).getD (Config.encodeSampleByte sample j))

/-- The bytes of one frame: the encoded sample once per channel (R322). -/
def frameOf (p : Params) (sample : Int) : List Byte :=
  (List.replicate p.channels (encodeSample p sample)).flatten

/-- data[write_cursor] <- b; write_cursor <- (write_cursor + 1) mod CAP (R322). -/
def Audio.putByte (p : Params) (a : Audio) (b : Byte) : Audio :=
  { a with data := cellInsert a.data a.writeCursor b, writeCursor := (a.writeCursor + 1) % p.cap }

/-- One frame: its bytes, then the sample index once (R322). -/
def Audio.putFrame (p : Params) (play : Bool) (a : Audio) : Audio :=
  let a' := (frameOf p (sampleValue p play a.runningSampleIndex)).foldl (Audio.putByte p) a
  { a' with runningSampleIndex := a'.runningSampleIndex + 1 }

/-- `k` frames (R322). -/
def Audio.putFrames (p : Params) (play : Bool) : Nat → Audio → Audio
  | 0, a => a
  | k + 1, a => Audio.putFrames p play k (Audio.putFrame p play a)

/-- Generate(play, k) (R322, R323): the overrun bit, the frames, the pending length. -/
def Audio.generate (p : Params) (play : Bool) (k : Nat) (a : Audio) : Audio :=
  let nbytes := k * p.frameBytes
  let a' := Audio.putFrames p play k a
  { a' with overrun := a.overrun || decide (a.length + nbytes > p.cap), length := min p.cap (a.length + nbytes) }

/-- data[j]: the byte written there, or its construction draw (R40; log 6). -/
def Audio.byteAt (a : Audio) (j : Nat) : Byte := (cellLookup a.data j).getD (Config.audioByte j)

/-- The copy of a PULL in two contiguous regions: from play_cursor to the buffer's end, then from 0 (R326). -/
def Audio.copyOut (p : Params) (a : Audio) (req : Nat) : List Byte :=
  let first := min req (p.cap - a.playCursor)
  (List.range first).map (fun j => a.byteAt (a.playCursor + j)) ++ (List.range (req - first)).map a.byteAt

/-- The bytes a PULL returns: the pending ones, and a free byte for each byte past them (R326, R327; log 5). -/
def State.pullBytes (s : State) (req : Nat) : List Byte :=
  (s.audio.copyOut s.cfg req).take s.audio.length
    ++ (List.range (req - s.audio.length)).map (fun j => Config.underrunByte (s.underrunDraws + j))

/-- The audio state after PULL(req) (R326, R327). -/
def Audio.pulled (p : Params) (a : Audio) (req : Nat) : Audio :=
  { a with
    underrun := a.underrun || decide (req > a.length)
    playCursor := (a.playCursor + req) % p.cap
    length := a.length - req }

/-- PULL(req) (R304, R326, R328): what it returns is `State.pullBytes` of the state before (log 12). -/
def execPull (req : Nat) (s : State) : Result :=
  if !s.cfg.audioAvailable then .refused .audioUnavailable
  else if !s.cfg.audioWellFormed then .refused .badAudioConfig
  else if req > s.cfg.cap then .refused (.pullTooLarge req)
  else .next { s with
    audio := s.audio.pulled s.cfg req
    underrunDraws := s.underrunDraws + (req - s.audio.length) }

end Sys2Proof.Machine
end

