-- ==== Sys2Proof/Machine/HostOps.lean ====
section
/-! DEFINITION. The timer driver and the host's operations (spec/60_exceptions.md R310, R330, R335 to R337, R339;
spec/70_reset_and_hazards.md R370 to R374). PULL is in Sound.lean, STEP in Interp.lean. -/

namespace Sys2Proof.Machine

/-- A timer's decrement, clamped at 0 (R310). -/
def timerDown (t : Byte) : Byte := if t.toNat > 0 then t - 1 else 0

/-- Whether the tick plays tone: ST before or after its decrement is not 0 (R310, D22). -/
def tickPlays (p : Params) (st : Byte) : Bool :=
  match p.toneSamplePoint with
  | .beforeDecrement => st != 0
  | .afterDecrement => timerDown st != 0

/-- TICK(k) (R310): both timers down, and one Generate when the audio device is there; refused before the first BOOT,
and with a refused audio configuration (R304, R320; log 17). -/
def execTick (k : Nat) (s : State) : Result :=
  if !s.booted then .refused .notBooted
  else if s.cfg.audioAvailable then
    if !s.cfg.audioWellFormed then .refused .badAudioConfig
    else .next { s with
      dt := timerDown s.dt
      st := timerDown s.st
      audio := s.audio.generate s.cfg (tickPlays s.cfg s.st) k }
  else .next { s with dt := timerDown s.dt, st := timerDown s.st }

/-- SET_KEY(v) (R330). -/
def execSetKey (v : Option Nibble) (s : State) : Result := .next (s.setKey v)

/-- SET_QUIRKS(s, i) (R335). -/
def execSetQuirks (shift index : Bool) (s : State) : Result :=
  .next { s with shiftQuirk := shift, indexQuirk := index }

/-- Memory after BOOT: the glyph bytes as they were, the image at 0x200 truncated at capacity, and every other byte a
new draw, listed nowhere (R371, R372, D17). -/
def bootMemory (m : Memory) (image : List Byte) : Memory :=
  m.filter (fun c => inFont c.1) ++ cellsFrom Config.progBase (image.take Config.progMax)

/-- BOOT(image) (R371): also of a faulted machine, whose `fault` stays (R302, D33). -/
def State.boot (s : State) (image : List Byte) : State :=
  { s with
    v := Vector.replicate Config.numV 0
    i := 0
    pc := BitVec.ofNat 16 Config.progBase
    sp := 0
    stack := Vector.replicate Config.stackDepth 0
    dt := 0
    st := 0
    display := Display.clear
    mem := bootMemory s.mem image
    booted := true
    boots := s.boots + 1 }

/-- BOOT(image) as an operation: always enabled (R335, R372). -/
def execBoot (image : List Byte) (s : State) : Result := .next (s.boot image)

/-- OBSERVE changes nothing (R335); what it returns is `State.observe` (log 12). -/
def execObserve (s : State) : Result := .next s

/-- FINISH changes no state of the machine; the emulation activity issues no further STEP (R337, D36; log 10). -/
def execFinish (s : State) : Result := .next { s with finished := true }

/-- What OBSERVE returns (R39, R252). -/
structure Observation where
  /-- 2048 words, row-major: the cell (row, col) is word row · 64 + col (R252). -/
  display : List (BitVec 32)
  /-- V[0..15]. -/
  v : Vector Byte Config.numV
  /-- stack[0..15]. -/
  stack : Vector Word Config.stackDepth
  /-- pc. -/
  pc : Word
  /-- sp. -/
  sp : StackIndex
  /-- I. -/
  i : Word
  /-- DT. -/
  dt : Byte
  /-- ST. -/
  st : Byte
  deriving DecidableEq, Repr

/-- The 32-bit constant of a cell (R35, R251). -/
def pixelWord (p : Params) : Pixel → BitVec 32
  | .off => p.pixelOff
  | .on => p.pixelOn

/-- OBSERVE: a consistent snapshot between two steps (R39, R73, R252). -/
def State.observe (s : State) : Observation where
  display := (s.display.toList.map (fun row => row.toList.map (pixelWord s.cfg))).flatten
  v := s.v
  stack := s.stack
  pc := s.pc
  sp := s.sp
  i := s.i
  dt := s.dt
  st := s.st

/-- Constructing a machine: refused with a configuration of R320 (R304, R370). -/
def construct (p : Params) : Result :=
  if p.audioWellFormed then .next (State.constructed p) else .refused .badAudioConfig

end Sys2Proof.Machine
end

