-- ==== Sys2Proof/Machine/Interp.lean ====
section
/-! DEFINITION. The interpreter's STEP (spec/30_encoding.md R101) and the operations of the interface as one function of
the operation (spec/60_exceptions.md R335). -/

namespace Sys2Proof.Machine

/-- Executing a fetched word: its instruction, or the no-op of an unrecognized word (R96, R101). -/
def runWord (w : Word) (s : State) : Result :=
  match decode w with
  | .ok i => exec i s
  | .error _ => execUnrecognized s

/-- STEP (R101): refused before the first BOOT and after FINISH; no step when faulted; the fetch check; then the fetched
word, with pc advanced past it. -/
def interpret (s : State) : Result :=
  if !s.booted then .refused .notBooted
  else if s.finished then .refused .finished
  else match s.fault with
    | some f => .fault f
    | none =>
      if s.fetchFaults then .next (s.recordFault (.fetchOutOfRange s.pc))
      else runWord s.fetchWord s.advance

/-- One operation of the interface (R335), each one atomic transition (R72). -/
def perform : HostOp → State → Result
  | .step, s => interpret s
  | .tick k, s => execTick k s
  | .pull req, s => execPull req s
  | .setKey v, s => execSetKey v s
  | .setQuirks shift index, s => execSetQuirks shift index s
  | .boot image, s => execBoot image s
  | .observe, s => execObserve s
  | .finish, s => execFinish s

/-- The next transition of the interleaving: the first operation scheduled, or STEP when none is (R72; log 9). -/
def nextTransition (s : State) : Result :=
  match s.schedule with
  | [] => interpret s
  | op :: rest => perform op { s with schedule := rest }

end Sys2Proof.Machine
end

