-- ==== Sys2Proof/Machine/Step.lean ====
section
/-! DEFINITION. The step of the machine, and where its next instruction word is placed. -/

namespace Sys2Proof.Machine

/-- One step: the next atomic transition (spec/20_memory.md R72, spec/60_exceptions.md R335). -/
def step (s : State) : Host.Outcome State Fault Refusal := nextTransition s

/-- `s` with the word stored at `pc`, and with all that the very next step needs to fetch it (R101, R335): booted, not
finished, no fault, nothing scheduled before it, and pc at an address a word can be fetched from (log 1). -/
def State.withFetchWord (s : State) (nbits w : Nat) : State :=
  { s with
    booted := true
    finished := false
    fault := none
    schedule := []
    pc := s.fetchablePc }.placeWord (tableWord nbits w)

end Sys2Proof.Machine
end

