-- ==== Sys2Proof/Safety.lean ====
section
/-! DEFINITION. The terms the claims use: what a safe run is (spec/60_exceptions.md R302), what an instruction may write
(spec/10_state.md R38) and what it leaves, the invariants of reachable states, the pending bytes of the ring buffer, and
the cells a sprite covers. -/

namespace Sys2Proof.Machine

/-! ### Safe runs -/

/-- A safe run of `k` transitions: none is refused or answers a fault, and no state of it is faulted ("a faulted state is
never a final state of a run: it refutes any claim about the run", R302). -/
def safeRun : Nat → State → Prop
  | 0, s => s.fault = none
  | k + 1, s => s.fault = none ∧ ∃ t, step s = .next t ∧ safeRun k t

/-! ### Frames -/

/-- The parts of the state an instruction may write. What is named in no field here (the parameters, the quirks, the
booted flag, the fault record, the audio state, the schedule and the model's other own counters) no instruction writes. -/
structure Writes where
  v : Nibble → Prop := fun _ => False
  i : Prop := False
  pc : Prop := False
  sp : Prop := False
  stack : StackIndex → Prop := fun _ => False
  dt : Prop := False
  st : Prop := False
  mem : Nat → Prop := fun _ => False
  display : Prop := False
  key : Prop := False
  random : Prop := False

/-- `t` agrees with `s` on everything outside `w`: every register, every stack entry, every byte of memory (through the
model's read of one byte), every display cell, and every other field. -/
def Frame (w : Writes) (s t : State) : Prop :=
  (∀ r, ¬ w.v r → t.getV r = s.getV r)
  ∧ (¬ w.i → t.i = s.i)
  ∧ (¬ w.pc → t.pc = s.pc)
  ∧ (¬ w.sp → t.sp = s.sp)
  ∧ (∀ j, ¬ w.stack j → t.getStack j = s.getStack j)
  ∧ (¬ w.dt → t.dt = s.dt)
  ∧ (¬ w.st → t.st = s.st)
  ∧ (∀ a, ¬ w.mem a → t.readByte a = s.readByte a)
  ∧ (¬ w.display → ∀ row col, Display.get t.display row col = Display.get s.display row col)
  ∧ (¬ w.key → t.key = s.key)
  ∧ (¬ w.random → t.randomDraws = s.randomDraws)
  ∧ t.cfg = s.cfg ∧ t.shiftQuirk = s.shiftQuirk ∧ t.indexQuirk = s.indexQuirk ∧ t.booted = s.booted
  ∧ t.fault = s.fault ∧ t.audio = s.audio ∧ t.boots = s.boots ∧ t.underrunDraws = s.underrunDraws
  ∧ t.schedule = s.schedule ∧ t.finished = s.finished

/-- The write columns of the access matrix (R38), with the finer rules it summarises: RET writes no stack entry (R31), CALL
writes the entry above sp (R122), a flag goes to VF (R22), Fx33 and Fx55 store from I on (R65), Fx65 loads V0..Vx (R205),
I moves under index_quirk only, the mailbox empties under FX0A_CONSUMES_KEY only (R233). -/
def writesOf (i : Instr) (s : State) : Writes :=
  match i with
  | .cls => { display := True }
  | .ret => { pc := True, sp := True }
  | .jp _ => { pc := True }
  | .call _ => { pc := True, sp := True, stack := fun j => j.val = s.sp.val + 1 }
  | .seImm _ _ => { pc := True }
  | .sneImm _ _ => { pc := True }
  | .seReg _ _ => { pc := True }
  | .ldImm x _ => { v := fun r => r = x }
  | .addImm x _ => { v := fun r => r = x }
  | .ldReg x _ => { v := fun r => r = x }
  | .orReg x _ => { v := fun r => r = x }
  | .andReg x _ => { v := fun r => r = x }
  | .xorReg x _ => { v := fun r => r = x }
  | .addReg x _ => { v := fun r => r = x ∨ r = 0xF }
  | .subReg x _ => { v := fun r => r = x ∨ r = 0xF }
  | .shr x _ => { v := fun r => r = x ∨ r = 0xF }
  | .subn x _ => { v := fun r => r = x ∨ r = 0xF }
  | .shl x _ => { v := fun r => r = x ∨ r = 0xF }
  | .sneReg _ _ => { pc := True }
  | .ldI _ => { i := True }
  | .jpV0 _ => { pc := True }
  | .rnd x _ => { v := fun r => r = x, random := True }
  | .drw _ _ _ => { v := fun r => r = 0xF, display := True }
  | .skp _ => { pc := True }
  | .sknp _ => { pc := True }
  | .ldVDt x => { v := fun r => r = x }
  | .ldVK x => { v := fun r => r = x, pc := True, key := s.cfg.fx0aConsumesKey = true }
  | .ldDt _ => { dt := True }
  | .ldSt _ => { st := True }
  | .addI _ => { v := fun r => r = 0xF, i := True }
  | .ldF _ => { i := True }
  | .ldB _ => { mem := fun a => s.i.toNat ≤ a ∧ a < s.i.toNat + 3 }
  | .ldMemV x => { mem := fun a => s.i.toNat ≤ a ∧ a ≤ s.i.toNat + x.toNat, i := s.indexQuirk = true }
  | .ldVMem x => { v := fun r => r.toNat ≤ x.toNat, i := s.indexQuirk = true }

/-! ### Invariants -/

/-- Memory keeps its canonical form (log 3). -/
def MemoryCanonical (s : State) : Prop := Memory.wf s.cfg.font s.mem

/-- pc is at most 0x1002 and I at most 0x1000, every stack entry is a return address at most 0x1000, and stack[0] is 0:
"no reachable value exceeds" (R23, R30), and R31. -/
def RegistersInRange (s : State) : Prop :=
  s.pc.toNat ≤ 0x1002 ∧ s.i.toNat ≤ 0x1000 ∧ (∀ j, (s.getStack j).toNat ≤ 0x1000) ∧ s.getStack 0 = 0

/-- In a machine whose audio configuration is not refused, the cursors are offsets into data, at most CAP bytes are
pending, and data lists each written offset once (R36). -/
def AudioInRange (s : State) : Prop :=
  s.cfg.audioWellFormed = true →
    s.audio.playCursor < s.cfg.cap ∧ s.audio.writeCursor < s.cfg.cap ∧ s.audio.length ≤ s.cfg.cap
    ∧ cellsRising s.audio.data ∧ ∀ c ∈ s.audio.data, c.1 < s.cfg.cap

/-- While neither sticky bit is set, write_cursor = (play_cursor + length) mod CAP (R331). -/
def CursorsAgree (s : State) : Prop :=
  s.cfg.audioWellFormed = true → s.audio.overrun = false → s.audio.underrun = false →
    s.audio.writeCursor = (s.audio.playCursor + s.audio.length) % s.cfg.cap

/-! ### The audio configuration and the square wave (R320, R321, R322) -/

/-- BadAudioConfig: one of the six quantities of R320 is 0. -/
def BadAudio (p : Params) : Prop :=
  p.cap = 0 ∨ p.channels = 0 ∨ p.sampleBytes = 0 ∨ p.sampleRate = 0 ∨ p.toneHz = 0 ∨ p.sampleRate / p.toneHz / 2 = 0

/-- The sample value at an index: TONE_VOLUME when playing in the odd half periods, else SILENCE_VALUE (R321). -/
def squareWave (p : Params) (play : Bool) (idx : Nat) : Int :=
  if play = true ∧ idx / (p.sampleRate / p.toneHz / 2) % 2 = 1 then p.toneVolume else p.silenceValue

/-- The bytes of `k` frames from index `idx` on, each frame the encoded sample once for each channel (R322). -/
def waveFrames (p : Params) (play : Bool) (idx k : Nat) : List Byte :=
  ((List.range k).map (fun j =>
    (List.replicate p.channels (encodeSample p (squareWave p play (idx + j)))).flatten)).flatten

/-! ### The ring buffer as a queue (R331) -/

/-- The pending bytes, oldest first: `length` bytes from play_cursor on, wrapping. -/
def Audio.pending (p : Params) (a : Audio) : List Byte :=
  (List.range a.length).map (fun j => a.byteAt ((a.playCursor + j) % p.cap))

/-! ### Sprites (R254) -/

/-- The other of the two pixel values. -/
def otherPixel : Pixel → Pixel
  | .off => .on
  | .on => .off

/-- A set bit of the `n`-row sprite at I, drawn from origin (x0, y0), addresses the cell. -/
def State.spriteCovers (s : State) (x0 y0 n : Nat) (row : Row) (col : Col) : Prop :=
  ∃ r c, r < n ∧ c < 8 ∧ (s.readByte (s.i.toNat + r)).getLsbD (7 - c) = true
    ∧ row.val = (y0 + r) % 32 ∧ col.val = (x0 + c) % 64

end Sys2Proof.Machine
end

