-- ==== Sys2Proof/Certificates/Slice0/Obligations.lean ====
section
/-! DEFINITION. The statements for the provers, each from a numbered rule of spec/. A meaning is stated as `exec` gives
it: on a state after the prelude of spec/30_encoding.md R101, in which `pc` is the instruction's address plus 2 (log 16);
StepRunsTheDecodedInstruction carries it to a step. -/

namespace Sys2Proof.Claims

open Sys2Proof.Machine

/-- STEP is enabled (R335). -/
abbrev StepEnabled (s : State) : Prop := s.booted = true ∧ s.finished = false ∧ s.fault = none

/-- The interpreter is about to execute an instruction: nothing else is scheduled, STEP is enabled (R335), and the fetch is
in range (R101). -/
abbrev Ready (s : State) : Prop := s.schedule = [] ∧ StepEnabled s ∧ s.pc.toNat ≤ 0xFFE

/-- The word at pc: big-endian, `mem[pc]` its upper byte (R64). -/
def nextWord (s : State) : Word :=
  BitVec.ofNat 16 ((s.readByte s.pc.toNat).toNat * 256 + (s.readByte (s.pc.toNat + 1)).toNat)

/-- The next transition is the interpreter's STEP: nothing is scheduled, or STEP is scheduled first. What is scheduled after
it is `s.schedule.tail`, which is empty in the first case. -/
abbrev IsStep (s : State) : Prop := s.schedule = [] ∨ s.schedule.head? = some .step

/-- The list of R96, in its own order. -/
abbrev unrecognizedByList (w : Word) : Prop :=
  (w.toNat < 0x1000 ∧ w.toNat ≠ 0x00E0 ∧ w.toNat ≠ 0x00EE)
  ∨ (w.toNat / 0x1000 = 0x5 ∧ w.toNat % 16 ≠ 0)
  ∨ (w.toNat / 0x1000 = 0x8 ∧ w.toNat % 16 ∈ [0x8, 0x9, 0xA, 0xB, 0xC, 0xD, 0xF])
  ∨ (w.toNat / 0x1000 = 0x9 ∧ w.toNat % 16 ≠ 0)
  ∨ (w.toNat / 0x1000 = 0xE ∧ w.toNat % 256 ∉ [0x9E, 0xA1])
  ∨ (w.toNat / 0x1000 = 0xF ∧ w.toNat % 256 ∉ [0x07, 0x0A, 0x15, 0x18, 0x1E, 0x29, 0x33, 0x55, 0x65])

/-- A fault inside an instruction: the step's only effect is the record, pc stays at the instruction's address (R302). -/
def faulted (s : State) (f : Fault) : State := { s with pc := s.pc - 2, fault := some f }

/-- What WriteRF leaves (R161): result and flag in their registers; when x = F, VF holds the one written last. -/
def ResultAndFlag (s t : State) (x : Nibble) (r f : Nat) : Prop :=
  (x ≠ 0xF → (t.getV x).toNat = r ∧ (t.getV 0xF).toNat = f)
  ∧ (x = 0xF → (t.getV 0xF).toNat = if s.cfg.flagOrder = .flagLast then f else r)

/-- The predicate of the key skips (R140). -/
def KeyEquals (s : State) (v : Byte) : Prop :=
  (∃ k, s.key = some k ∧ k.toNat = v.toNat) ∨ (s.key = none ∧ s.cfg.noKeyCode = some v)

/-- The table of R301 for the instructions: the fault each one raises in a state, if it raises one. -/
def faultOf (i : Instr) (s : State) : Option Fault :=
  match i with
  | .ret => if s.sp.val = 0 then some (.stackUnderflow (s.pc - 2)) else none
  | .call _ => if s.sp.val = 15 then some (.stackOverflow (s.pc - 2)) else none
  | .drw _ _ n =>
    if 0 < n.toNat ∧ s.i.toNat + n.toNat - 1 > 0xFFF then some (.memOutOfRange (BitVec.ofNat 16 (max s.i.toNat 0x1000)))
    else none
  | .ldB _ => if s.i.toNat + 2 > 0xFFF then some (.memOutOfRange (BitVec.ofNat 16 (max s.i.toNat 0x1000))) else none
  | .ldMemV x | .ldVMem x =>
    if s.i.toNat + x.toNat > 0xFFF then some (.memOutOfRange (BitVec.ofNat 16 (max s.i.toNat 0x1000))) else none
  | .cls | .jp _ | .seImm _ _ | .sneImm _ _ | .seReg _ _ | .ldImm _ _ | .addImm _ _ | .ldReg _ _ | .orReg _ _
  | .andReg _ _ | .xorReg _ _ | .addReg _ _ | .subReg _ _ | .shr _ _ | .subn _ _ | .shl _ _ | .sneReg _ _ | .ldI _
  | .jpV0 _ | .rnd _ _ | .skp _ | .sknp _ | .ldVDt _ | .ldVK _ | .ldDt _ | .ldSt _ | .addI _ | .ldF _ => none

/-- The source byte of a shift (R170, R172). -/
def shiftedByte (s : State) (x y : Nibble) : Nat := if s.shiftQuirk = true then (s.getV y).toNat else (s.getV x).toNat

end Sys2Proof.Claims

open Sys2Proof Sys2Proof.Machine Sys2Proof.Claims

/-! ### Encoding -/

/-- DECODE AND ENCODE AGREE, for every instruction with every operand at every value (R93, R95). -/
def Obligations.EncodedInstructionsDecode : Prop := ∀ i : Instr, decode (encode i) = .ok i

/-- A word that decodes is the encoding of what it decodes to: no bit of it is dropped (R91, R95). -/
def Obligations.DecodedWordsAreTheirEncodings : Prop := ∀ (w : Word) (i : Instr), decode w = .ok i → encode i = w

/-- R99: the decoder is total: exactly one row, that of the decoded instruction, or unrecognized and no row. -/
def Obligations.DecoderIsTotal : Prop :=
  ∀ w : Word,
    (∃ i, decode w = .ok i ∧ ∃! r, r ∈ rows ∧ matchesRow w r = true ∧ rowMatch r = rowMatch i)
      ∧ (∃! r, r ∈ rows ∧ matchesRow w r = true)
    ∨ decode w = .error (.unrecognized w) ∧ ∀ r ∈ rows, matchesRow w r = false

/-- "No two rows match the same word" (R95). -/
def Obligations.OpcodeRowsAreDisjoint : Prop :=
  ∀ (w : Word) (a b : Instr), a ∈ rows → b ∈ rows → matchesRow w a = true → matchesRow w b = true → a = b

/-- R96: the unrecognized words are exactly those of its list, and executing one only advances pc by 2. -/
def Obligations.UnrecognizedWordsAreNoOps : Prop :=
  (∀ w : Word, decode w = .error (.unrecognized w) ↔ unrecognizedByList w)
  ∧ (∀ w : Word, recognized w = false ↔ unrecognizedByList w)
  ∧ ∀ s : State, StepEnabled s → s.pc.toNat ≤ 0xFFE → unrecognizedByList (nextWord s) →
      perform .step s = .next { s with pc := s.pc + 2 }
      ∧ (IsStep s → step s = .next { s with pc := s.pc + 2, schedule := s.schedule.tail })

/-- One word of each family, written from its row's bit pattern, decodes to the instruction it stands for (R95). -/
def Obligations.SampleWordsDecode : Prop :=
  decode 0x00E0 = .ok .cls ∧ decode 0x00EE = .ok .ret ∧ decode 0x2ABC = .ok (.call 0xABC)
  ∧ decode 0x3342 = .ok (.seImm 3 0x42) ∧ decode 0x5120 = .ok (.seReg 1 2) ∧ decode 0x81F5 = .ok (.subReg 1 0xF)
  ∧ decode 0xA123 = .ok (.ldI 0x123) ∧ decode 0xF533 = .ok (.ldB 5) ∧ decode 0xF20A = .ok (.ldVK 2)
  ∧ decode 0xD125 = .ok (.drw 1 2 5) ∧ decode 0xE4A1 = .ok (.sknp 4)

/-! ### The step -/

/-- A STEP RUNS THE DECODED INSTRUCTION: pc moves past the word, then the instruction's meaning (R64, R101), in any schedule:
of the operation STEP itself, and of a transition that is a STEP, unscheduled or taken from the schedule (R72, R335). -/
def Obligations.StepRunsTheDecodedInstruction : Prop :=
  ∀ (s : State) (i : Instr), StepEnabled s → s.pc.toNat ≤ 0xFFE → decode (nextWord s) = .ok i →
    perform .step s = exec i { s with pc := s.pc + 2 }
    ∧ (IsStep s → step s = exec i { s with pc := s.pc + 2, schedule := s.schedule.tail })

/-- The fetch case of R301 and R302: beyond 0xFFE nothing is fetched, and the only effect is the record, in any schedule. -/
def Obligations.FetchBeyondMemoryFaults : Prop :=
  ∀ s : State, StepEnabled s → s.pc.toNat > 0xFFE →
    perform .step s = .next { s with fault := some (.fetchOutOfRange s.pc) }
    ∧ (IsStep s → step s = .next { s with fault := some (.fetchOutOfRange s.pc), schedule := s.schedule.tail })

/-- When STEP is not enabled (R302, R304, R337): refused before the first BOOT and after FINISH, no step when faulted, in any
schedule. (That FINISH shows as a refusal of STEP is the model's, log 10.) -/
def Obligations.StepNeedsAnEnabledInterpreter : Prop :=
  ∀ s : State,
    (s.booted = false → perform .step s = .refused .notBooted ∧ (IsStep s → step s = .refused .notBooted))
    ∧ (s.booted = true → s.finished = true →
        perform .step s = .refused .finished ∧ (IsStep s → step s = .refused .finished))
    ∧ (∀ f, s.booted = true → s.finished = false → s.fault = some f →
        perform .step s = .fault f ∧ (IsStep s → step s = .fault f))

/-- The interleaving: a scheduled operation is the next transition, whatever it is (R72, R335; the schedule is the model's,
log 9). -/
def Obligations.ScheduledOperationComesNext : Prop :=
  ∀ (s : State) (op : HostOp) (rest : List HostOp), s.schedule = op :: rest →
    step s = perform op { s with schedule := rest }

/-- A stored byte is what a fetch from its address or from the address before sees (R64, R77). -/
def Obligations.StoredByteIsFetched : Prop :=
  ∀ (s : State) (a : Nat) (b : Byte), MemoryCanonical s → a < 4096 →
    (s.pc.toNat = a → ((nextWord (s.writeByte a b)).toNat / 256 = b.toNat))
    ∧ (s.pc.toNat + 1 = a → ((nextWord (s.writeByte a b)).toNat % 256 = b.toNat))

/-! ### Control transfer -/

/-- R121, JP: pc <- nnn, and nothing else; a target of 0xFFF faults at the next fetch. -/
def Obligations.JumpGoesToItsTarget : Prop :=
  ∀ (nnn : Addr12) (s : State), ∃ t, exec (.jp nnn) s = .next t ∧ Frame { pc := True } s t
    ∧ t.pc.toNat = nnn.toNat ∧ (t.fetchFaults = true ↔ nnn.toNat = 0xFFF)

/-- R123, JP V0: pc <- (nnn + V0) & 0xFFF, and nothing else; a result of 0xFFF faults at the next fetch. -/
def Obligations.OffsetJumpWrapsAt12Bits : Prop :=
  ∀ (nnn : Addr12) (s : State), ∃ t, exec (.jpV0 nnn) s = .next t ∧ Frame { pc := True } s t
    ∧ t.pc.toNat = (nnn.toNat + (s.getV 0).toNat) % 4096
    ∧ (t.fetchFaults = true ↔ (nnn.toNat + (s.getV 0).toNat) % 4096 = 0xFFF)

/-- R122, CALL: below sp = 15 it pushes the address after itself and jumps; at sp = 15 it faults. -/
def Obligations.CallPushesItsReturnAddress : Prop :=
  ∀ (nnn : Addr12) (s : State),
    (s.sp.val < 15 → ∃ t, exec (.call nnn) s = .next t
      ∧ Frame { pc := True, sp := True, stack := fun j => j = t.sp } s t
      ∧ t.sp.val = s.sp.val + 1 ∧ t.getStack t.sp = s.pc ∧ t.pc.toNat = nnn.toNat)
    ∧ (s.sp.val = 15 → exec (.call nnn) s = .next (faulted s (.stackOverflow (s.pc - 2))))

/-- R120, RET: above sp = 0 it takes the top entry and leaves the stack's entries; at sp = 0 it faults. -/
def Obligations.ReturnPopsTheStack : Prop :=
  ∀ s : State,
    (0 < s.sp.val → ∃ t, exec .ret s = .next t ∧ Frame { pc := True, sp := True } s t
      ∧ t.pc = s.getStack s.sp ∧ t.sp.val = s.sp.val - 1)
    ∧ (s.sp.val = 0 → exec .ret s = .next (faulted s (.stackUnderflow (s.pc - 2))))

/-- A RET after a CALL comes back to the instruction after the CALL, with sp and the older entries as they were (R120,
R122). -/
def Obligations.ReturnUndoesCall : Prop :=
  ∀ (nnn : Addr12) (s : State), s.sp.val < 15 →
    ∃ t u, exec (.call nnn) s = .next t ∧ exec .ret t = .next u ∧ u.pc = s.pc ∧ u.sp = s.sp
      ∧ ∀ j : StackIndex, j.val ≤ s.sp.val → u.getStack j = s.getStack j

/-! ### Skips -/

/-- R142, R143: SE and SNE with an immediate skip exactly when V[x] is, or is not, kk. -/
def Obligations.ImmediateSkipsCompare : Prop :=
  ∀ (x : Nibble) (kk : Byte) (s : State), ∃ t u,
    exec (.seImm x kk) s = .next t ∧ exec (.sneImm x kk) s = .next u
    ∧ Frame { pc := True } s t ∧ Frame { pc := True } s u
    ∧ (s.getV x = kk → t.pc = s.pc + 2 ∧ u.pc = s.pc) ∧ (s.getV x ≠ kk → t.pc = s.pc ∧ u.pc = s.pc + 2)

/-- R144, R145: SE and SNE of registers skip exactly when they are equal, or differ. -/
def Obligations.RegisterSkipsCompare : Prop :=
  ∀ (x y : Nibble) (s : State), ∃ t u,
    exec (.seReg x y) s = .next t ∧ exec (.sneReg x y) s = .next u
    ∧ Frame { pc := True } s t ∧ Frame { pc := True } s u
    ∧ (s.getV x = s.getV y → t.pc = s.pc + 2 ∧ u.pc = s.pc)
    ∧ (s.getV x ≠ s.getV y → t.pc = s.pc ∧ u.pc = s.pc + 2)

/-- R140, R146, R147: SKP and SKNP make opposite choices on the mailbox compared with V[x]. -/
def Obligations.KeySkipsAreOpposite : Prop :=
  ∀ (x : Nibble) (s : State), ∃ t u,
    exec (.skp x) s = .next t ∧ exec (.sknp x) s = .next u
    ∧ Frame { pc := True } s t ∧ Frame { pc := True } s u
    ∧ (KeyEquals s (s.getV x) → t.pc = s.pc + 2 ∧ u.pc = s.pc)
    ∧ (¬ KeyEquals s (s.getV x) → t.pc = s.pc ∧ u.pc = s.pc + 2)

/-! ### Arithmetic and logic -/

/-- R162, R163: LD and ADD with an immediate; VF is written only as V[x]. -/
def Obligations.ImmediateLoadAndAdd : Prop :=
  ∀ (x : Nibble) (kk : Byte) (s : State), ∃ t u,
    exec (.ldImm x kk) s = .next t ∧ exec (.addImm x kk) s = .next u
    ∧ Frame { v := fun r => r = x } s t ∧ Frame { v := fun r => r = x } s u
    ∧ t.getV x = kk ∧ (u.getV x).toNat = ((s.getV x).toNat + kk.toNat) % 256

/-- R164 to R167: copy, OR, AND, XOR, bit by bit; VF is written only as V[x]. -/
def Obligations.CopyAndBitwiseLogic : Prop :=
  ∀ (x y : Nibble) (s : State), ∃ t0 t1 t2 t3,
    exec (.ldReg x y) s = .next t0 ∧ exec (.orReg x y) s = .next t1
    ∧ exec (.andReg x y) s = .next t2 ∧ exec (.xorReg x y) s = .next t3
    ∧ Frame { v := fun r => r = x } s t0 ∧ Frame { v := fun r => r = x } s t1
    ∧ Frame { v := fun r => r = x } s t2 ∧ Frame { v := fun r => r = x } s t3
    ∧ t0.getV x = s.getV y
    ∧ ∀ j, j < 8 →
      (t1.getV x).getLsbD j = ((s.getV x).getLsbD j || (s.getV y).getLsbD j)
      ∧ (t2.getV x).getLsbD j = ((s.getV x).getLsbD j && (s.getV y).getLsbD j)
      ∧ (t3.getV x).getLsbD j = (((s.getV x).getLsbD j) ^^ ((s.getV y).getLsbD j))

/-- R161, R168: ADD of registers: the sum mod 256 and the carry, in either FLAG_ORDER. -/
def Obligations.AddSetsCarry : Prop :=
  ∀ (x y : Nibble) (s : State), ∃ t, exec (.addReg x y) s = .next t
    ∧ Frame { v := fun r => r = x ∨ r = 0xF } s t
    ∧ ResultAndFlag s t x (((s.getV x).toNat + (s.getV y).toNat) % 256)
        (if (s.getV x).toNat + (s.getV y).toNat > 255 then 1 else 0)

/-- R161, R169, R171: SUB and SUBN: the difference mod 256 and VF = 1 exactly when there is no borrow. -/
def Obligations.SubtractSetsNoBorrow : Prop :=
  ∀ (x y : Nibble) (s : State), ∃ t u,
    exec (.subReg x y) s = .next t ∧ exec (.subn x y) s = .next u
    ∧ Frame { v := fun r => r = x ∨ r = 0xF } s t ∧ Frame { v := fun r => r = x ∨ r = 0xF } s u
    ∧ ResultAndFlag s t x ((256 + (s.getV x).toNat - (s.getV y).toNat) % 256)
        (if (s.getV x).toNat ≥ (s.getV y).toNat then 1 else 0)
    ∧ ResultAndFlag s u x ((256 + (s.getV y).toNat - (s.getV x).toNat) % 256)
        (if (s.getV y).toNat ≥ (s.getV x).toNat then 1 else 0)

/-- R161, R170, R172: SHR and SHL of the source the shift quirk selects, with the bit shifted out in VF. -/
def Obligations.ShiftsByOneWithBitOut : Prop :=
  ∀ (x y : Nibble) (s : State), ∃ t u,
    exec (.shr x y) s = .next t ∧ exec (.shl x y) s = .next u
    ∧ Frame { v := fun r => r = x ∨ r = 0xF } s t ∧ Frame { v := fun r => r = x ∨ r = 0xF } s u
    ∧ ResultAndFlag s t x (shiftedByte s x y / 2) (shiftedByte s x y % 2)
    ∧ ResultAndFlag s u x (shiftedByte s x y * 2 % 256) (shiftedByte s x y / 128)

/-- R173, RND: a byte masked by kk, whatever the draw; that successive draws are the free values of a counter is the model's
choice (log 4). -/
def Obligations.RandomByteIsMasked : Prop :=
  ∀ (x : Nibble) (kk : Byte) (s : State), ∃ t, exec (.rnd x kk) s = .next t
    ∧ Frame { v := fun r => r = x, random := True } s t
    ∧ t.getV x = Config.randomByte s.randomDraws &&& kk ∧ t.randomDraws = s.randomDraws + 1
    ∧ (∀ j, kk.getLsbD j = false → (t.getV x).getLsbD j = false)

/-! ### Index register and memory -/

/-- R200, R202: LD I and LD F; the mask of LD F never changes the value. -/
def Obligations.IndexLoads : Prop :=
  ∀ (nnn : Addr12) (x : Nibble) (s : State), ∃ t u,
    exec (.ldI nnn) s = .next t ∧ exec (.ldF x) s = .next u
    ∧ Frame { i := True } s t ∧ Frame { i := True } s u
    ∧ t.i.toNat = nnn.toNat ∧ u.i.toNat = (s.getV x).toNat * 5

/-- R201, ADD I: the sum masked to 12 bits, VF = 1 exactly when the unmasked sum exceeds 0xFFF. -/
def Obligations.IndexAddSetsOverflow : Prop :=
  ∀ (x : Nibble) (s : State), ∃ t, exec (.addI x) s = .next t
    ∧ Frame { v := fun r => r = 0xF, i := True } s t
    ∧ t.i.toNat = (s.i.toNat + (s.getV x).toNat) % 4096
    ∧ (t.getV 0xF).toNat = if s.i.toNat + (s.getV x).toNat > 0xFFF then 1 else 0

/-- R203, LD B: the three decimal digits from I on, and no other byte; out of range a fault and nothing written. -/
def Obligations.DecimalDigitsAreStored : Prop :=
  ∀ (x : Nibble) (s : State), MemoryCanonical s →
    (s.i.toNat + 2 ≤ 0xFFF → ∃ t, exec (.ldB x) s = .next t
      ∧ Frame { mem := fun a => s.i.toNat ≤ a ∧ a < s.i.toNat + 3 } s t
      ∧ (t.readByte s.i.toNat).toNat = (s.getV x).toNat / 100
      ∧ (t.readByte (s.i.toNat + 1)).toNat = (s.getV x).toNat / 10 % 10
      ∧ (t.readByte (s.i.toNat + 2)).toNat = (s.getV x).toNat % 10)
    ∧ (s.i.toNat + 2 > 0xFFF → exec (.ldB x) s =
        .next (faulted s (.memOutOfRange (BitVec.ofNat 16 (max s.i.toNat 0x1000)))))

/-- R204, LD [I], Vx: V0..Vx from I on, and no other byte; I advances unmasked under index_quirk only; out of range a fault
and nothing written. -/
def Obligations.RegistersAreStored : Prop :=
  ∀ (x : Nibble) (s : State), MemoryCanonical s →
    (s.i.toNat + x.toNat ≤ 0xFFF → ∃ t, exec (.ldMemV x) s = .next t
      ∧ Frame { mem := fun a => s.i.toNat ≤ a ∧ a ≤ s.i.toNat + x.toNat, i := s.indexQuirk = true } s t
      ∧ (∀ r : Nibble, r.toNat ≤ x.toNat → t.readByte (s.i.toNat + r.toNat) = s.getV r)
      ∧ t.i.toNat = if s.indexQuirk = true then s.i.toNat + x.toNat + 1 else s.i.toNat)
    ∧ (s.i.toNat + x.toNat > 0xFFF → exec (.ldMemV x) s =
        .next (faulted s (.memOutOfRange (BitVec.ofNat 16 (max s.i.toNat 0x1000)))))

/-- R205, LD Vx, [I]: V0..Vx from memory, the other registers kept; I advances unmasked under index_quirk only; out of
range a fault and nothing changed. -/
def Obligations.RegistersAreLoaded : Prop :=
  ∀ (x : Nibble) (s : State),
    (s.i.toNat + x.toNat ≤ 0xFFF → ∃ t, exec (.ldVMem x) s = .next t
      ∧ Frame { v := fun r => r.toNat ≤ x.toNat, i := s.indexQuirk = true } s t
      ∧ (∀ r : Nibble, r.toNat ≤ x.toNat → t.getV r = s.readByte (s.i.toNat + r.toNat))
      ∧ t.i.toNat = if s.indexQuirk = true then s.i.toNat + x.toNat + 1 else s.i.toNat)
    ∧ (s.i.toNat + x.toNat > 0xFFF → exec (.ldVMem x) s =
        .next (faulted s (.memOutOfRange (BitVec.ofNat 16 (max s.i.toNat 0x1000)))))

/-- Fx55 and then Fx65 at the same I give V0..Vx back, whatever became of the registers in between (R68, R204, R205). -/
def Obligations.StoreThenLoadRestoresRegisters : Prop :=
  ∀ (x : Nibble) (s : State) (v : Vector Byte Config.numV), MemoryCanonical s → s.i.toNat + x.toNat ≤ 0xFFF →
    ∃ t u, exec (.ldMemV x) s = .next t ∧ exec (.ldVMem x) { t with v := v, i := s.i } = .next u
      ∧ ∀ r : Nibble, r.toNat ≤ x.toNat → u.getV r = s.getV r

/-! ### Timers and keys -/

/-- R230, R231, R232: the three timer moves, each with its frame. -/
def Obligations.TimerMoves : Prop :=
  ∀ (x : Nibble) (s : State), ∃ t u w,
    exec (.ldVDt x) s = .next t ∧ exec (.ldDt x) s = .next u ∧ exec (.ldSt x) s = .next w
    ∧ Frame { v := fun r => r = x } s t ∧ Frame { dt := True } s u ∧ Frame { st := True } s w
    ∧ t.getV x = s.dt ∧ u.dt = s.getV x ∧ w.st = s.getV x

/-- R233, LD Vx, K: a pressed key goes to V[x] and leaves the mailbox only under FX0A_CONSUMES_KEY; without one, pc goes back
to the instruction and nothing else changes. -/
def Obligations.KeyReadTakesOrRewinds : Prop :=
  ∀ (x : Nibble) (s : State),
    (∀ k, s.key = some k → ∃ t, exec (.ldVK x) s = .next t
      ∧ Frame { v := fun r => r = x, key := s.cfg.fx0aConsumesKey = true } s t
      ∧ (t.getV x).toNat = k.toNat ∧ (s.cfg.fx0aConsumesKey = true → t.key = none))
    ∧ (s.key = none → ∃ t, exec (.ldVK x) s = .next t ∧ Frame { pc := True } s t ∧ t.pc = s.pc - 2)

/-- The spin of Fx0A (R233): with no key pressed every number of steps leaves the whole state as it is, safely. -/
def Obligations.KeyWaitSpinsUnchanged : Prop :=
  ∀ (x : Nibble) (s : State), Ready s → decode (nextWord s) = .ok (.ldVK x) → s.key = none →
    ∀ n : Nat, Sys2Proof.core.run n s = .next s ∧ safeRun n s

/-! ### The display -/

/-- R253, CLS: every cell off, nothing else changed. -/
def Obligations.ClearTurnsEveryCellOff : Prop :=
  ∀ s : State, ∃ t, exec .cls s = .next t ∧ Frame { display := True } s t
    ∧ ∀ row col, Display.get t.display row col = .off

/-- R254, DRW: in range (n = 0 is always), each covered cell is flipped, every other kept, VF = 1 exactly when a covered cell
was on; out of range a fault and nothing drawn. -/
def Obligations.DrawFlipsCoveredCells : Prop :=
  ∀ (x y n : Nibble) (s : State),
    (n.toNat = 0 ∨ s.i.toNat + n.toNat - 1 ≤ 0xFFF → ∃ t, exec (.drw x y n) s = .next t
      ∧ Frame { v := fun r => r = 0xF, display := True } s t
      ∧ (∀ row col,
          (s.spriteCovers (s.getV x).toNat (s.getV y).toNat n.toNat row col →
            Display.get t.display row col = otherPixel (Display.get s.display row col))
          ∧ (¬ s.spriteCovers (s.getV x).toNat (s.getV y).toNat n.toNat row col →
            Display.get t.display row col = Display.get s.display row col))
      ∧ ((∃ row col, s.spriteCovers (s.getV x).toNat (s.getV y).toNat n.toNat row col
            ∧ Display.get s.display row col = .on) → t.getV 0xF = 1)
      ∧ ((¬ ∃ row col, s.spriteCovers (s.getV x).toNat (s.getV y).toNat n.toNat row col
            ∧ Display.get s.display row col = .on) → t.getV 0xF = 0))
    ∧ (0 < n.toNat → s.i.toNat + n.toNat - 1 > 0xFFF → exec (.drw x y n) s =
        .next (faulted s (.memOutOfRange (BitVec.ofNat 16 (max s.i.toNat 0x1000)))))

/-- R256: a Dxyn and the same Dxyn again, V[x] and V[y] unchanged between them, restore the display; the second sets VF
exactly when a set bit addresses a cell that was off before the first. -/
def Obligations.DrawingTwiceRestores : Prop :=
  ∀ (x y n : Nibble) (s t : State), n.toNat = 0 ∨ s.i.toNat + n.toNat - 1 ≤ 0xFFF →
    exec (.drw x y n) s = .next t → t.getV x = s.getV x → t.getV y = s.getV y →
    ∃ u, exec (.drw x y n) t = .next u
      ∧ (∀ row col, Display.get u.display row col = Display.get s.display row col)
      ∧ (u.getV 0xF = 1 ↔ ∃ row col, s.spriteCovers (s.getV x).toNat (s.getV y).toNat n.toNat row col
          ∧ Display.get s.display row col = .off)

/-! ### Whole-machine rules over the instructions -/

/-- R301: no instruction faults but under its condition, every one always has a next state, and a fault is precise (R302). -/
def Obligations.OnlyTheListedConditionsFault : Prop :=
  ∀ (i : Instr) (s : State), s.fault = none → ∃ t, exec i s = .next t ∧ t.fault = faultOf i s
    ∧ ∀ f, faultOf i s = some f → t = faulted s f

/-- R38: an instruction that does not fault writes only what the access matrix lists for it. -/
def Obligations.InstructionsKeepTheirFrame : Prop :=
  ∀ (i : Instr) (s t : State), MemoryCanonical s → exec i s = .next t → faultOf i s = none →
    Frame (writesOf i s) s t

/-- R329: no instruction reads or writes the audio state. -/
def Obligations.InstructionsIgnoreTheAudio : Prop :=
  ∀ (i : Instr) (s t : State) (a : Audio), exec i s = .next t →
    t.audio = s.audio ∧ exec i { s with audio := a } = .next { t with audio := a }

/-- R302: a STEP that raises a fault changes nothing but the record; and a transition that raises one is a STEP, unscheduled or
taken from the schedule, which then changes nothing else either. -/
def Obligations.FaultsArePrecise : Prop :=
  ∀ (s t : State) (f : Fault), s.fault = none → t.fault = some f →
    (perform .step s = .next t → t = { s with fault := some f })
    ∧ (step s = .next t → IsStep s ∧ t = { s with fault := some f, schedule := s.schedule.tail })

/-- R302: no operation clears a fault, BOOT included, and a faulted machine has no STEP. -/
def Obligations.FaultsAreSticky : Prop :=
  ∀ (s t : State) (f : Fault), s.fault = some f → step s = .next t →
    t.fault = some f ∧ s.schedule ≠ [] ∧ s.schedule.head? ≠ some .step

/-- R33, R312: a transition raises DT or ST only if it is a STEP that fetches and executes Fx15 or Fx18, and then it loads
V[x]; every other transition leaves or lowers each. -/
def Obligations.TimersFallUnlessLoaded : Prop :=
  ∀ s t : State, step s = .next t →
    (t.dt.toNat ≤ s.dt.toNat ∨ IsStep s ∧ s.fetchFaults = false
      ∧ ∃ x, decode (nextWord s) = .ok (.ldDt x) ∧ t.dt = s.getV x)
    ∧ (t.st.toNat ≤ s.st.toNat ∨ IsStep s ∧ s.fetchFaults = false
      ∧ ∃ x, decode (nextWord s) = .ok (.ldSt x) ∧ t.st = s.getV x)

/-! ### The timer driver and the audio ring buffer -/

/-- R310: a tick of a booted machine lowers both timers to no less than 0 and generates, with the audio device there, a batch
of tone or silence as TONE_SAMPLE_POINT says; it changes nothing else. Before BOOT it is refused. (What it
answers with a refused configuration is in PullIsRefused.) -/
def Obligations.TickCountsDownAndGenerates : Prop :=
  ∀ (k : Nat) (s : State),
    (s.booted = true → (s.cfg.audioAvailable = true → ¬ BadAudio s.cfg) →
      ∃ t play, perform (.tick k) s = .next t
        ∧ t = { s with dt := t.dt, st := t.st, audio := t.audio }
        ∧ t.dt.toNat = s.dt.toNat - 1 ∧ t.st.toNat = s.st.toNat - 1
        ∧ (s.cfg.toneSamplePoint = .beforeDecrement → (play = true ↔ s.st.toNat ≠ 0))
        ∧ (s.cfg.toneSamplePoint = .afterDecrement → (play = true ↔ s.st.toNat - 1 ≠ 0))
        ∧ (s.cfg.audioAvailable = true → t.audio = s.audio.generate s.cfg play k)
        ∧ (s.cfg.audioAvailable = false → t.audio = s.audio))
    ∧ (s.booted = false → perform (.tick k) s = .refused .notBooted)

/-- R321, R322, R324: a Generate without overrun appends its frames to the pending bytes: for each index the encoding of
TONE_VOLUME when it plays and the half period is odd, else of SILENCE_VALUE, once for each channel. The sample index advances
by one a frame, whether it plays or not. -/
def Obligations.GenerateAppendsFrames : Prop :=
  ∀ (s : State) (play : Bool) (k : Nat), s.cfg.audioWellFormed = true →
    s.audio.writeCursor = (s.audio.playCursor + s.audio.length) % s.cfg.cap →
    s.audio.length + k * s.cfg.frameBytes ≤ s.cfg.cap →
    (s.audio.generate s.cfg play k).pending s.cfg =
        s.audio.pending s.cfg ++ waveFrames s.cfg play s.audio.runningSampleIndex k
      ∧ (s.audio.generate s.cfg play k).runningSampleIndex = s.audio.runningSampleIndex + k
      ∧ (s.audio.generate s.cfg play k).overrun = s.audio.overrun

/-- R322, R323: an overrun is recorded, sticks, and leaves CAP bytes pending; the write still happens: data holds each byte of
the frames that no later one overwrites where write_cursor put it, wrapping, and is as before at every other offset. -/
def Obligations.OverrunIsRecorded : Prop :=
  ∀ (s : State) (play : Bool) (k : Nat), s.cfg.audioWellFormed = true → s.audio.writeCursor < s.cfg.cap →
    ((s.audio.generate s.cfg play k).overrun = true ↔
        s.audio.overrun = true ∨ s.audio.length + k * s.cfg.frameBytes > s.cfg.cap)
      ∧ (s.audio.generate s.cfg play k).length = min s.cfg.cap (s.audio.length + k * s.cfg.frameBytes)
      ∧ (s.audio.generate s.cfg play k).writeCursor = (s.audio.writeCursor + k * s.cfg.frameBytes) % s.cfg.cap
      ∧ (s.audio.generate s.cfg play k).playCursor = s.audio.playCursor
      ∧ (∀ q, q < k * s.cfg.frameBytes → k * s.cfg.frameBytes ≤ q + s.cfg.cap →
          (s.audio.generate s.cfg play k).byteAt ((s.audio.writeCursor + q) % s.cfg.cap) =
            (waveFrames s.cfg play s.audio.runningSampleIndex k).getD q 0)
      ∧ (∀ j, (∀ q, q < k * s.cfg.frameBytes → j ≠ (s.audio.writeCursor + q) % s.cfg.cap) →
          (s.audio.generate s.cfg play k).byteAt j = s.audio.byteAt j)

/-- R326: a PULL of pending bytes returns the oldest of them, in order, wrapping at the buffer's end, and removes them; it
changes nothing but play_cursor and length. -/
def Obligations.PullTakesTheOldestBytes : Prop :=
  ∀ (s : State) (req : Nat), s.cfg.audioAvailable = true → s.cfg.audioWellFormed = true → AudioInRange s →
    req ≤ s.audio.length →
    ∃ t, perform (.pull req) s = .next t
      ∧ s.pullBytes req = (s.audio.pending s.cfg).take req
      ∧ t.audio.pending s.cfg = (s.audio.pending s.cfg).drop req
      ∧ t.audio.playCursor = (s.audio.playCursor + req) % s.cfg.cap
      ∧ t = { s with audio := { s.audio with playCursor := t.audio.playCursor, length := s.audio.length - req } }

/-- R326, R327: a PULL of more than the pending bytes still returns exactly `req` bytes, the pending ones first, sets the
sticky bit and empties the buffer. -/
def Obligations.UnderrunIsRecorded : Prop :=
  ∀ (s : State) (req : Nat), s.cfg.audioAvailable = true → s.cfg.audioWellFormed = true → AudioInRange s →
    s.audio.length < req → req ≤ s.cfg.cap →
    ∃ t, perform (.pull req) s = .next t
      ∧ (s.pullBytes req).length = req
      ∧ (s.pullBytes req).take s.audio.length = s.audio.pending s.cfg
      ∧ t.audio = { s.audio with
          playCursor := (s.audio.playCursor + req) % s.cfg.cap, length := 0, underrun := true }
      ∧ t = { s with audio := t.audio, underrunDraws := t.underrunDraws }

/-- R304, R320, R328: a PULL has no step without an audio device and is refused beyond CAP bytes; an audio configuration of
R320 is refused by a PULL, by a TICK with the audio device there and at construction, which otherwise gives the constructed
machine (that these three operations answer BadAudioConfig is the model's, log 17). -/
def Obligations.PullIsRefused : Prop :=
  (∀ (s : State) (req : Nat),
    (s.cfg.audioAvailable = false → perform (.pull req) s = .refused .audioUnavailable)
    ∧ (s.cfg.audioAvailable = true → BadAudio s.cfg → perform (.pull req) s = .refused .badAudioConfig)
    ∧ (s.cfg.audioAvailable = true → ¬ BadAudio s.cfg → req > s.cfg.cap →
        perform (.pull req) s = .refused (.pullTooLarge req)))
  ∧ (∀ (s : State) (k : Nat), s.booted = true → s.cfg.audioAvailable = true → BadAudio s.cfg →
      perform (.tick k) s = .refused .badAudioConfig)
  ∧ ∀ p : Params, (BadAudio p → construct p = .refused .badAudioConfig)
      ∧ (¬ BadAudio p → construct p = .next (State.constructed p))

/-! ### The host's operations -/

/-- R330, R335: SET_KEY replaces the mailbox's value and SET_QUIRKS the two flags, in every state, and nothing else changes;
the last SET_KEY wins (R74). -/
def Obligations.HostSettingsReplace : Prop :=
  ∀ (s : State) (v v' : Option Nibble) (shift index : Bool), ∃ t t' u,
    perform (.setKey v) s = .next t ∧ perform (.setKey v') t = .next t' ∧ perform (.setQuirks shift index) s = .next u
    ∧ Frame { key := True } s t ∧ t.key = v ∧ t'.key = v' ∧ perform (.setKey v') s = .next t'
    ∧ u = { s with shiftQuirk := u.shiftQuirk, indexQuirk := u.indexQuirk }
    ∧ u.shiftQuirk = shift ∧ u.indexQuirk = index

/-- R371: BOOT from any state. What it draws reads as the free value of its own boot (log 3). -/
def Obligations.BootResetsTheMachine : Prop :=
  ∀ (s : State) (image : List Byte), ∃ t, perform (.boot image) s = .next t
    ∧ (∀ r, t.getV r = 0) ∧ t.i = 0 ∧ t.pc = 0x200 ∧ t.sp = 0 ∧ (∀ j, t.getStack j = 0) ∧ t.dt = 0 ∧ t.st = 0
    ∧ (∀ row col, Display.get t.display row col = .off)
    ∧ (∀ a, a < 0x50 → t.readByte a = s.readByte a)
    ∧ (∀ k, k < min image.length 3584 → t.readByte (0x200 + k) = image.getD k 0)
    ∧ (∀ a, (0x50 ≤ a ∧ a < 0x200) ∨ (0x200 + min image.length 3584 ≤ a ∧ a < 4096) →
        t.readByte a = Config.memoryByte (s.boots + 1) a)
    ∧ t.booted = true ∧ t.key = s.key ∧ t.shiftQuirk = s.shiftQuirk ∧ t.indexQuirk = s.indexQuirk
    ∧ t.fault = s.fault ∧ t.audio = s.audio ∧ t.cfg = s.cfg

/-- R252: OBSERVE presents 2048 words, row-major, each cell as its pixel constant. -/
def Obligations.ObservedDisplayIsRowMajor : Prop :=
  ∀ s : State, s.observe.display.length = 2048
    ∧ ∀ (row : Row) (col : Col), s.observe.display[row.val * 64 + col.val]? =
        some (match Display.get s.display row col with | .off => s.cfg.pixelOff | .on => s.cfg.pixelOn)

/-- R39, R335: OBSERVE changes nothing and returns the display, V, stack, pc, sp, I, DT and ST as they are; and since the two
pixel constants are distinct (R251), two cells are observed as the same word exactly when they hold the same value. -/
def Obligations.ObserveReturnsTheListedState : Prop :=
  ∀ s : State, perform .observe s = .next s
    ∧ (∀ r : Nibble, s.observe.v[r.toNat]? = some (s.getV r))
    ∧ (∀ j : StackIndex, s.observe.stack[j.val]? = some (s.getStack j))
    ∧ s.observe.pc = s.pc ∧ s.observe.sp = s.sp ∧ s.observe.i = s.i ∧ s.observe.dt = s.dt ∧ s.observe.st = s.st
    ∧ s.cfg.pixelOff ≠ s.cfg.pixelOn
    ∧ ∀ (row row' : Row) (col col' : Col),
        s.observe.display[row.val * 64 + col.val]? = s.observe.display[row'.val * 64 + col'.val]? ↔
          Display.get s.display row col = Display.get s.display row' col'

/-- FINISH changes no state of the machine, booted or not (R335, R337): it sets the model's flag (log 10) and nothing else.
After it STEP is refused, and every other operation answers as it did before: the same refusal, or the same next state with
the flag set; OBSERVE and PULL return the same. -/
def Obligations.FinishOnlyEndsTheSteps : Prop :=
  ∀ s : State, ∃ t, perform .finish s = .next t ∧ t = { s with finished := true }
    ∧ (s.booted = true → perform .step t = .refused .finished)
    ∧ (s.booted = false → perform .step t = .refused .notBooted)
    ∧ t.observe = s.observe ∧ (∀ req, t.pullBytes req = s.pullBytes req)
    ∧ ∀ op : HostOp, op ≠ .step →
      (∀ u, perform op s = .next u → perform op t = .next { u with finished := true })
      ∧ (∀ r, perform op s = .refused r → perform op t = .refused r)
      ∧ ∀ f, perform op s ≠ .fault f

/-! ### Invariants that every step keeps -/

/-- Memory keeps its canonical form through every transition (log 3). -/
def Obligations.MemoryStaysCanonical : Prop :=
  ∀ s t : State, MemoryCanonical s → step s = .next t → MemoryCanonical t

/-- pc stays at most 0x1002 and I at most 0x1000, return addresses stay at most 0x1000, and stack[0] stays 0 (R23, R30, R31). -/
def Obligations.RegistersStayInRange : Prop :=
  ∀ s t : State, RegistersInRange s → step s = .next t → RegistersInRange t

/-- The ring buffer's cursors stay offsets into data and at most CAP bytes are pending (R36). -/
def Obligations.AudioStaysInRange : Prop :=
  ∀ s t : State, AudioInRange s → step s = .next t → AudioInRange t

/-- R331, its first law: while neither sticky bit is set, write_cursor = (play_cursor + length) mod CAP. -/
def Obligations.CursorsStayInAgreement : Prop :=
  ∀ s t : State, AudioInRange s → CursorsAgree s → step s = .next t → CursorsAgree t

/-- The parameters never change, the sticky audio bits stay set, the sample index never falls and a booted machine stays
booted (R8, R323, R324, R327, R370). -/
def Obligations.ParametersAndStickyBitsStay : Prop :=
  ∀ s t : State, step s = .next t →
    t.cfg = s.cfg ∧ (s.audio.overrun = true → t.audio.overrun = true)
    ∧ (s.audio.underrun = true → t.audio.underrun = true)
    ∧ s.audio.runningSampleIndex ≤ t.audio.runningSampleIndex ∧ (s.booted = true → t.booted = true)

/-- The invariants hold at reset and at construction, and reset is BOOT of an empty image on a constructed machine (R40,
R371, R372; that this is State.reset is the model's choice, log 1). What construction holds (R40, R62, R63, R370): the glyph
set FONT at 0x000 to 0x04F, in order, the quirks false, no key, no fault, not booted, the audio cursors, length and sample
index 0, and both sticky bits false. -/
def Obligations.ResetMeetsTheInvariants : Prop :=
  (State.constructed Config.resetParams).boot [] = State.reset
  ∧ MemoryCanonical State.reset ∧ RegistersInRange State.reset ∧ AudioInRange State.reset ∧ CursorsAgree State.reset
  ∧ State.reset.pc = 0x200 ∧ State.reset.fault = none ∧ State.reset.key = none
  ∧ ∀ p : Params, MemoryCanonical (State.constructed p) ∧ AudioInRange (State.constructed p)
      ∧ CursorsAgree (State.constructed p)
      ∧ (State.constructed p).cfg = p
      ∧ (∀ (a : Nat) (h : a < 80), (State.constructed p).readByte a = p.font[a]'h)
      ∧ (State.constructed p).shiftQuirk = false ∧ (State.constructed p).indexQuirk = false
      ∧ (State.constructed p).key = none ∧ (State.constructed p).fault = none ∧ (State.constructed p).booted = false
      ∧ (State.constructed p).audio.playCursor = 0 ∧ (State.constructed p).audio.writeCursor = 0
      ∧ (State.constructed p).audio.length = 0 ∧ (State.constructed p).audio.runningSampleIndex = 0
      ∧ (State.constructed p).audio.overrun = false ∧ (State.constructed p).audio.underrun = false
end

