-- ==== Sys2Proof/Laws/Decode.lean ====
section
/-! SUPPORT. The fields of a word built by a format (spec/30_encoding.md R91, R93), and the fixed bits it carries. -/

namespace Sys2Proof

theorem fieldOp_formA (op : Nibble) (nnn : Addr12) : fieldOp (formA op nnn) = op := by
  apply BitVec.eq_of_getLsbD_eq
  intro i hi
  simp only [fieldOp, formA, BitVec.getLsbD_extractLsb', BitVec.getLsbD_append]
  simp [hi]

theorem fieldNNN_formA (op : Nibble) (nnn : Addr12) : fieldNNN (formA op nnn) = nnn := by
  apply BitVec.eq_of_getLsbD_eq
  intro i hi
  simp only [fieldNNN, formA, BitVec.getLsbD_extractLsb', BitVec.getLsbD_append]
  simp [hi]

theorem fieldOp_formXK (op x : Nibble) (kk : Byte) : fieldOp (formXK op x kk) = op := by
  apply BitVec.eq_of_getLsbD_eq
  intro i hi
  simp only [fieldOp, formXK, BitVec.getLsbD_extractLsb', BitVec.getLsbD_append]
  simp [hi]

theorem fieldX_formXK (op x : Nibble) (kk : Byte) : fieldX (formXK op x kk) = x := by
  apply BitVec.eq_of_getLsbD_eq
  intro i hi
  have h1 : 8 + i < 12 := by omega
  simp only [fieldX, formXK, BitVec.getLsbD_extractLsb', BitVec.getLsbD_append]
  simp [hi, h1]

theorem fieldKK_formXK (op x : Nibble) (kk : Byte) : fieldKK (formXK op x kk) = kk := by
  apply BitVec.eq_of_getLsbD_eq
  intro i hi
  have h1 : i < 12 := by omega
  simp only [fieldKK, formXK, BitVec.getLsbD_extractLsb', BitVec.getLsbD_append]
  simp [hi, h1]

theorem fieldOp_formXYN (op x y n : Nibble) : fieldOp (formXYN op x y n) = op := by
  apply BitVec.eq_of_getLsbD_eq
  intro i hi
  simp only [fieldOp, formXYN, BitVec.getLsbD_extractLsb', BitVec.getLsbD_append]
  simp [hi]

theorem fieldX_formXYN (op x y n : Nibble) : fieldX (formXYN op x y n) = x := by
  apply BitVec.eq_of_getLsbD_eq
  intro i hi
  have h1 : 8 + i < 12 := by omega
  simp only [fieldX, formXYN, BitVec.getLsbD_extractLsb', BitVec.getLsbD_append]
  simp [hi, h1]

theorem fieldY_formXYN (op x y n : Nibble) : fieldY (formXYN op x y n) = y := by
  apply BitVec.eq_of_getLsbD_eq
  intro i hi
  have h1 : 4 + i < 12 := by omega
  have h2 : 4 + i < 8 := by omega
  simp only [fieldY, formXYN, BitVec.getLsbD_extractLsb', BitVec.getLsbD_append]
  simp [hi, h1, h2]

theorem fieldN_formXYN (op x y n : Nibble) : fieldN (formXYN op x y n) = n := by
  apply BitVec.eq_of_getLsbD_eq
  intro i hi
  have h1 : i < 12 := by omega
  have h2 : i < 8 := by omega
  simp only [fieldN, formXYN, BitVec.getLsbD_extractLsb', BitVec.getLsbD_append]
  simp [hi, h1, h2]

/-- The bytes of a word, laid out and read back, are the word (R64). -/
theorem wordOfBytes_high_low (w : Word) : wordOfBytes (highByte w) (lowByte w) = w := by
  apply BitVec.eq_of_getLsbD_eq
  intro i hi
  simp only [wordOfBytes, highByte, lowByte, BitVec.getLsbD_append, BitVec.getLsbD_extractLsb']
  by_cases h : i < 8
  · simp [h]
  · have h1 : i - 8 < 8 := by omega
    have h2 : 8 + (i - 8) = i := by omega
    simp [h, h1, h2]

/-! ### The fixed bits of a form -/

/-- Two words agree when their four nibbles do. -/
theorem word_eq_of_fields {w w' : Word} (h3 : fieldOp w = fieldOp w') (h2 : fieldX w = fieldX w')
    (h1 : fieldY w = fieldY w') (h0 : fieldN w = fieldN w') : w = w' := by
  apply BitVec.eq_of_getLsbD_eq
  intro i hi
  rcases Nat.lt_or_ge i 4 with h | h
  · simpa [fieldN, BitVec.getLsbD_extractLsb', h] using congrArg (fun b => b.getLsbD i) h0
  rcases Nat.lt_or_ge i 8 with h' | h'
  · have e : 4 + (i - 4) = i := by omega
    have l : i - 4 < 4 := by omega
    simpa [fieldY, BitVec.getLsbD_extractLsb', l, e] using congrArg (fun b => b.getLsbD (i - 4)) h1
  rcases Nat.lt_or_ge i 12 with h'' | h''
  · have e : 8 + (i - 8) = i := by omega
    have l : i - 8 < 4 := by omega
    simpa [fieldX, BitVec.getLsbD_extractLsb', l, e] using congrArg (fun b => b.getLsbD (i - 8)) h2
  · have e : 12 + (i - 12) = i := by omega
    have l : i - 12 < 4 := by omega
    simpa [fieldOp, BitVec.getLsbD_extractLsb', l, e] using congrArg (fun b => b.getLsbD (i - 12)) h3

theorem fieldOp_and (w m : Word) : fieldOp (w &&& m) = fieldOp w &&& fieldOp m := by
  simp [fieldOp, BitVec.extractLsb'_and]
theorem fieldX_and (w m : Word) : fieldX (w &&& m) = fieldX w &&& fieldX m := by
  simp [fieldX, BitVec.extractLsb'_and]
theorem fieldY_and (w m : Word) : fieldY (w &&& m) = fieldY w &&& fieldY m := by
  simp [fieldY, BitVec.extractLsb'_and]
theorem fieldN_and (w m : Word) : fieldN (w &&& m) = fieldN w &&& fieldN m := by
  simp [fieldN, BitVec.extractLsb'_and]

/-- Under a mask of the group nibble alone, a word keeps its group nibble and nothing else. -/
theorem and_F000 (w : Word) : w &&& (0xF000 : Word) = fieldOp w ++ (0 : Addr12) := by
  apply BitVec.eq_of_getLsbD_eq
  intro i hi
  simp only [fieldOp, BitVec.getLsbD_and, BitVec.getLsbD_append, BitVec.getLsbD_extractLsb']
  rcases Nat.lt_or_ge i 12 with h | h
  · have : (61440#16).getLsbD i = false := by interval_cases i <;> rfl
    simp [h, this]
  · have : (61440#16).getLsbD i = true := by interval_cases i <;> rfl
    have h1 : ¬ i < 12 := by omega
    have h2 : i - 12 < 4 := by omega
    have h3 : 12 + (i - 12) = i := by omega
    simp [h1, this, h2, h3]

/-- Under a mask of the group nibble and the trailing nibble. -/
theorem and_F00F (w : Word) : (w &&& (0xF00F : Word) : Word) = (fieldOp w ++ ((0 : Byte) ++ fieldN w) : BitVec (4 + (8 + 4))) := by
  apply BitVec.eq_of_getLsbD_eq
  intro i hi
  simp only [fieldOp, fieldN, BitVec.getLsbD_and, BitVec.getLsbD_append, BitVec.getLsbD_extractLsb']
  rcases Nat.lt_or_ge i 4 with h | h
  · have : (61455#16).getLsbD i = true := by interval_cases i <;> rfl
    have h1 : i < 12 := by omega
    simp [h, h1, this]
  rcases Nat.lt_or_ge i 12 with h' | h'
  · have : (61455#16).getLsbD i = false := by interval_cases i <;> rfl
    have h1 : ¬ i < 4 := by omega
    simp [h', h1, this]
  · have : (61455#16).getLsbD i = true := by interval_cases i <;> rfl
    have h1 : ¬ i < 12 := by omega
    have h2 : i - 12 < 4 := by omega
    have h3 : 12 + (i - 12) = i := by omega
    simp [h1, this, h2, h3]

/-- Under a mask of the group nibble and the low byte. -/
theorem and_F0FF (w : Word) : (w &&& (0xF0FF : Word) : Word) = (fieldOp w ++ ((0 : Nibble) ++ fieldKK w) : BitVec (4 + (4 + 8))) := by
  apply BitVec.eq_of_getLsbD_eq
  intro i hi
  simp only [fieldOp, fieldKK, BitVec.getLsbD_and, BitVec.getLsbD_append, BitVec.getLsbD_extractLsb']
  rcases Nat.lt_or_ge i 8 with h | h
  · have : (61695#16).getLsbD i = true := by interval_cases i <;> rfl
    have h1 : i < 12 := by omega
    simp [h, h1, this]
  rcases Nat.lt_or_ge i 12 with h' | h'
  · have : (61695#16).getLsbD i = false := by interval_cases i <;> rfl
    have h1 : ¬ i < 8 := by omega
    simp [h', h1, this]
  · have : (61695#16).getLsbD i = true := by interval_cases i <;> rfl
    have h1 : ¬ i < 12 := by omega
    have h2 : i - 12 < 4 := by omega
    have h3 : 12 + (i - 12) = i := by omega
    simp [h1, this, h2, h3]

end Sys2Proof
end

