-- ==== Sys2Proof/Laws/State.lean ====
section
/-! SUPPORT. Each field after each named update of the state, true by rfl: no later proof unfolds a record update. -/

namespace Sys2Proof.Machine

variable (s : State)

/-! ### setV -/

@[simp] theorem State.setV_cfg (x : Nibble) (b : Byte) : (s.setV x b).cfg = s.cfg := rfl
@[simp] theorem State.setV_v (x : Nibble) (b : Byte) : (s.setV x b).v = s.v.set x.toNat b x.isLt := rfl
@[simp] theorem State.setV_i (x : Nibble) (b : Byte) : (s.setV x b).i = s.i := rfl
@[simp] theorem State.setV_pc (x : Nibble) (b : Byte) : (s.setV x b).pc = s.pc := rfl
@[simp] theorem State.setV_sp (x : Nibble) (b : Byte) : (s.setV x b).sp = s.sp := rfl
@[simp] theorem State.setV_stack (x : Nibble) (b : Byte) : (s.setV x b).stack = s.stack := rfl
@[simp] theorem State.setV_dt (x : Nibble) (b : Byte) : (s.setV x b).dt = s.dt := rfl
@[simp] theorem State.setV_st (x : Nibble) (b : Byte) : (s.setV x b).st = s.st := rfl
@[simp] theorem State.setV_mem (x : Nibble) (b : Byte) : (s.setV x b).mem = s.mem := rfl
@[simp] theorem State.setV_display (x : Nibble) (b : Byte) : (s.setV x b).display = s.display := rfl
@[simp] theorem State.setV_key (x : Nibble) (b : Byte) : (s.setV x b).key = s.key := rfl
@[simp] theorem State.setV_shiftQuirk (x : Nibble) (b : Byte) : (s.setV x b).shiftQuirk = s.shiftQuirk := rfl
@[simp] theorem State.setV_indexQuirk (x : Nibble) (b : Byte) : (s.setV x b).indexQuirk = s.indexQuirk := rfl
@[simp] theorem State.setV_booted (x : Nibble) (b : Byte) : (s.setV x b).booted = s.booted := rfl
@[simp] theorem State.setV_fault (x : Nibble) (b : Byte) : (s.setV x b).fault = s.fault := rfl
@[simp] theorem State.setV_audio (x : Nibble) (b : Byte) : (s.setV x b).audio = s.audio := rfl
@[simp] theorem State.setV_boots (x : Nibble) (b : Byte) : (s.setV x b).boots = s.boots := rfl
@[simp] theorem State.setV_randomDraws (x : Nibble) (b : Byte) : (s.setV x b).randomDraws = s.randomDraws := rfl
@[simp] theorem State.setV_underrunDraws (x : Nibble) (b : Byte) : (s.setV x b).underrunDraws = s.underrunDraws := rfl
@[simp] theorem State.setV_schedule (x : Nibble) (b : Byte) : (s.setV x b).schedule = s.schedule := rfl
@[simp] theorem State.setV_finished (x : Nibble) (b : Byte) : (s.setV x b).finished = s.finished := rfl
@[simp] theorem State.setV_getStack (x : Nibble) (b : Byte) (j : StackIndex) : (s.setV x b).getStack j = s.getStack j := rfl
@[simp] theorem State.setV_readByte (x : Nibble) (b : Byte) (c : Nat) : (s.setV x b).readByte c = s.readByte c := rfl

/-! ### setI -/

@[simp] theorem State.setI_cfg (w : Word) : (s.setI w).cfg = s.cfg := rfl
@[simp] theorem State.setI_v (w : Word) : (s.setI w).v = s.v := rfl
@[simp] theorem State.setI_i (w : Word) : (s.setI w).i = w := rfl
@[simp] theorem State.setI_pc (w : Word) : (s.setI w).pc = s.pc := rfl
@[simp] theorem State.setI_sp (w : Word) : (s.setI w).sp = s.sp := rfl
@[simp] theorem State.setI_stack (w : Word) : (s.setI w).stack = s.stack := rfl
@[simp] theorem State.setI_dt (w : Word) : (s.setI w).dt = s.dt := rfl
@[simp] theorem State.setI_st (w : Word) : (s.setI w).st = s.st := rfl
@[simp] theorem State.setI_mem (w : Word) : (s.setI w).mem = s.mem := rfl
@[simp] theorem State.setI_display (w : Word) : (s.setI w).display = s.display := rfl
@[simp] theorem State.setI_key (w : Word) : (s.setI w).key = s.key := rfl
@[simp] theorem State.setI_shiftQuirk (w : Word) : (s.setI w).shiftQuirk = s.shiftQuirk := rfl
@[simp] theorem State.setI_indexQuirk (w : Word) : (s.setI w).indexQuirk = s.indexQuirk := rfl
@[simp] theorem State.setI_booted (w : Word) : (s.setI w).booted = s.booted := rfl
@[simp] theorem State.setI_fault (w : Word) : (s.setI w).fault = s.fault := rfl
@[simp] theorem State.setI_audio (w : Word) : (s.setI w).audio = s.audio := rfl
@[simp] theorem State.setI_boots (w : Word) : (s.setI w).boots = s.boots := rfl
@[simp] theorem State.setI_randomDraws (w : Word) : (s.setI w).randomDraws = s.randomDraws := rfl
@[simp] theorem State.setI_underrunDraws (w : Word) : (s.setI w).underrunDraws = s.underrunDraws := rfl
@[simp] theorem State.setI_schedule (w : Word) : (s.setI w).schedule = s.schedule := rfl
@[simp] theorem State.setI_finished (w : Word) : (s.setI w).finished = s.finished := rfl
@[simp] theorem State.setI_getV (w : Word) (r : Nibble) : (s.setI w).getV r = s.getV r := rfl
@[simp] theorem State.setI_getStack (w : Word) (j : StackIndex) : (s.setI w).getStack j = s.getStack j := rfl
@[simp] theorem State.setI_readByte (w : Word) (c : Nat) : (s.setI w).readByte c = s.readByte c := rfl

/-! ### setPc -/

@[simp] theorem State.setPc_cfg (w : Word) : (s.setPc w).cfg = s.cfg := rfl
@[simp] theorem State.setPc_v (w : Word) : (s.setPc w).v = s.v := rfl
@[simp] theorem State.setPc_i (w : Word) : (s.setPc w).i = s.i := rfl
@[simp] theorem State.setPc_pc (w : Word) : (s.setPc w).pc = w := rfl
@[simp] theorem State.setPc_sp (w : Word) : (s.setPc w).sp = s.sp := rfl
@[simp] theorem State.setPc_stack (w : Word) : (s.setPc w).stack = s.stack := rfl
@[simp] theorem State.setPc_dt (w : Word) : (s.setPc w).dt = s.dt := rfl
@[simp] theorem State.setPc_st (w : Word) : (s.setPc w).st = s.st := rfl
@[simp] theorem State.setPc_mem (w : Word) : (s.setPc w).mem = s.mem := rfl
@[simp] theorem State.setPc_display (w : Word) : (s.setPc w).display = s.display := rfl
@[simp] theorem State.setPc_key (w : Word) : (s.setPc w).key = s.key := rfl
@[simp] theorem State.setPc_shiftQuirk (w : Word) : (s.setPc w).shiftQuirk = s.shiftQuirk := rfl
@[simp] theorem State.setPc_indexQuirk (w : Word) : (s.setPc w).indexQuirk = s.indexQuirk := rfl
@[simp] theorem State.setPc_booted (w : Word) : (s.setPc w).booted = s.booted := rfl
@[simp] theorem State.setPc_fault (w : Word) : (s.setPc w).fault = s.fault := rfl
@[simp] theorem State.setPc_audio (w : Word) : (s.setPc w).audio = s.audio := rfl
@[simp] theorem State.setPc_boots (w : Word) : (s.setPc w).boots = s.boots := rfl
@[simp] theorem State.setPc_randomDraws (w : Word) : (s.setPc w).randomDraws = s.randomDraws := rfl
@[simp] theorem State.setPc_underrunDraws (w : Word) : (s.setPc w).underrunDraws = s.underrunDraws := rfl
@[simp] theorem State.setPc_schedule (w : Word) : (s.setPc w).schedule = s.schedule := rfl
@[simp] theorem State.setPc_finished (w : Word) : (s.setPc w).finished = s.finished := rfl
@[simp] theorem State.setPc_getV (w : Word) (r : Nibble) : (s.setPc w).getV r = s.getV r := rfl
@[simp] theorem State.setPc_getStack (w : Word) (j : StackIndex) : (s.setPc w).getStack j = s.getStack j := rfl
@[simp] theorem State.setPc_readByte (w : Word) (c : Nat) : (s.setPc w).readByte c = s.readByte c := rfl

/-! ### setDt -/

@[simp] theorem State.setDt_cfg (b : Byte) : (s.setDt b).cfg = s.cfg := rfl
@[simp] theorem State.setDt_v (b : Byte) : (s.setDt b).v = s.v := rfl
@[simp] theorem State.setDt_i (b : Byte) : (s.setDt b).i = s.i := rfl
@[simp] theorem State.setDt_pc (b : Byte) : (s.setDt b).pc = s.pc := rfl
@[simp] theorem State.setDt_sp (b : Byte) : (s.setDt b).sp = s.sp := rfl
@[simp] theorem State.setDt_stack (b : Byte) : (s.setDt b).stack = s.stack := rfl
@[simp] theorem State.setDt_dt (b : Byte) : (s.setDt b).dt = b := rfl
@[simp] theorem State.setDt_st (b : Byte) : (s.setDt b).st = s.st := rfl
@[simp] theorem State.setDt_mem (b : Byte) : (s.setDt b).mem = s.mem := rfl
@[simp] theorem State.setDt_display (b : Byte) : (s.setDt b).display = s.display := rfl
@[simp] theorem State.setDt_key (b : Byte) : (s.setDt b).key = s.key := rfl
@[simp] theorem State.setDt_shiftQuirk (b : Byte) : (s.setDt b).shiftQuirk = s.shiftQuirk := rfl
@[simp] theorem State.setDt_indexQuirk (b : Byte) : (s.setDt b).indexQuirk = s.indexQuirk := rfl
@[simp] theorem State.setDt_booted (b : Byte) : (s.setDt b).booted = s.booted := rfl
@[simp] theorem State.setDt_fault (b : Byte) : (s.setDt b).fault = s.fault := rfl
@[simp] theorem State.setDt_audio (b : Byte) : (s.setDt b).audio = s.audio := rfl
@[simp] theorem State.setDt_boots (b : Byte) : (s.setDt b).boots = s.boots := rfl
@[simp] theorem State.setDt_randomDraws (b : Byte) : (s.setDt b).randomDraws = s.randomDraws := rfl
@[simp] theorem State.setDt_underrunDraws (b : Byte) : (s.setDt b).underrunDraws = s.underrunDraws := rfl
@[simp] theorem State.setDt_schedule (b : Byte) : (s.setDt b).schedule = s.schedule := rfl
@[simp] theorem State.setDt_finished (b : Byte) : (s.setDt b).finished = s.finished := rfl
@[simp] theorem State.setDt_getV (b : Byte) (r : Nibble) : (s.setDt b).getV r = s.getV r := rfl
@[simp] theorem State.setDt_getStack (b : Byte) (j : StackIndex) : (s.setDt b).getStack j = s.getStack j := rfl
@[simp] theorem State.setDt_readByte (b : Byte) (c : Nat) : (s.setDt b).readByte c = s.readByte c := rfl

/-! ### setSt -/

@[simp] theorem State.setSt_cfg (b : Byte) : (s.setSt b).cfg = s.cfg := rfl
@[simp] theorem State.setSt_v (b : Byte) : (s.setSt b).v = s.v := rfl
@[simp] theorem State.setSt_i (b : Byte) : (s.setSt b).i = s.i := rfl
@[simp] theorem State.setSt_pc (b : Byte) : (s.setSt b).pc = s.pc := rfl
@[simp] theorem State.setSt_sp (b : Byte) : (s.setSt b).sp = s.sp := rfl
@[simp] theorem State.setSt_stack (b : Byte) : (s.setSt b).stack = s.stack := rfl
@[simp] theorem State.setSt_dt (b : Byte) : (s.setSt b).dt = s.dt := rfl
@[simp] theorem State.setSt_st (b : Byte) : (s.setSt b).st = b := rfl
@[simp] theorem State.setSt_mem (b : Byte) : (s.setSt b).mem = s.mem := rfl
@[simp] theorem State.setSt_display (b : Byte) : (s.setSt b).display = s.display := rfl
@[simp] theorem State.setSt_key (b : Byte) : (s.setSt b).key = s.key := rfl
@[simp] theorem State.setSt_shiftQuirk (b : Byte) : (s.setSt b).shiftQuirk = s.shiftQuirk := rfl
@[simp] theorem State.setSt_indexQuirk (b : Byte) : (s.setSt b).indexQuirk = s.indexQuirk := rfl
@[simp] theorem State.setSt_booted (b : Byte) : (s.setSt b).booted = s.booted := rfl
@[simp] theorem State.setSt_fault (b : Byte) : (s.setSt b).fault = s.fault := rfl
@[simp] theorem State.setSt_audio (b : Byte) : (s.setSt b).audio = s.audio := rfl
@[simp] theorem State.setSt_boots (b : Byte) : (s.setSt b).boots = s.boots := rfl
@[simp] theorem State.setSt_randomDraws (b : Byte) : (s.setSt b).randomDraws = s.randomDraws := rfl
@[simp] theorem State.setSt_underrunDraws (b : Byte) : (s.setSt b).underrunDraws = s.underrunDraws := rfl
@[simp] theorem State.setSt_schedule (b : Byte) : (s.setSt b).schedule = s.schedule := rfl
@[simp] theorem State.setSt_finished (b : Byte) : (s.setSt b).finished = s.finished := rfl
@[simp] theorem State.setSt_getV (b : Byte) (r : Nibble) : (s.setSt b).getV r = s.getV r := rfl
@[simp] theorem State.setSt_getStack (b : Byte) (j : StackIndex) : (s.setSt b).getStack j = s.getStack j := rfl
@[simp] theorem State.setSt_readByte (b : Byte) (c : Nat) : (s.setSt b).readByte c = s.readByte c := rfl

/-! ### setKey -/

@[simp] theorem State.setKey_cfg (k : Option Nibble) : (s.setKey k).cfg = s.cfg := rfl
@[simp] theorem State.setKey_v (k : Option Nibble) : (s.setKey k).v = s.v := rfl
@[simp] theorem State.setKey_i (k : Option Nibble) : (s.setKey k).i = s.i := rfl
@[simp] theorem State.setKey_pc (k : Option Nibble) : (s.setKey k).pc = s.pc := rfl
@[simp] theorem State.setKey_sp (k : Option Nibble) : (s.setKey k).sp = s.sp := rfl
@[simp] theorem State.setKey_stack (k : Option Nibble) : (s.setKey k).stack = s.stack := rfl
@[simp] theorem State.setKey_dt (k : Option Nibble) : (s.setKey k).dt = s.dt := rfl
@[simp] theorem State.setKey_st (k : Option Nibble) : (s.setKey k).st = s.st := rfl
@[simp] theorem State.setKey_mem (k : Option Nibble) : (s.setKey k).mem = s.mem := rfl
@[simp] theorem State.setKey_display (k : Option Nibble) : (s.setKey k).display = s.display := rfl
@[simp] theorem State.setKey_key (k : Option Nibble) : (s.setKey k).key = k := rfl
@[simp] theorem State.setKey_shiftQuirk (k : Option Nibble) : (s.setKey k).shiftQuirk = s.shiftQuirk := rfl
@[simp] theorem State.setKey_indexQuirk (k : Option Nibble) : (s.setKey k).indexQuirk = s.indexQuirk := rfl
@[simp] theorem State.setKey_booted (k : Option Nibble) : (s.setKey k).booted = s.booted := rfl
@[simp] theorem State.setKey_fault (k : Option Nibble) : (s.setKey k).fault = s.fault := rfl
@[simp] theorem State.setKey_audio (k : Option Nibble) : (s.setKey k).audio = s.audio := rfl
@[simp] theorem State.setKey_boots (k : Option Nibble) : (s.setKey k).boots = s.boots := rfl
@[simp] theorem State.setKey_randomDraws (k : Option Nibble) : (s.setKey k).randomDraws = s.randomDraws := rfl
@[simp] theorem State.setKey_underrunDraws (k : Option Nibble) : (s.setKey k).underrunDraws = s.underrunDraws := rfl
@[simp] theorem State.setKey_schedule (k : Option Nibble) : (s.setKey k).schedule = s.schedule := rfl
@[simp] theorem State.setKey_finished (k : Option Nibble) : (s.setKey k).finished = s.finished := rfl
@[simp] theorem State.setKey_getV (k : Option Nibble) (r : Nibble) : (s.setKey k).getV r = s.getV r := rfl
@[simp] theorem State.setKey_getStack (k : Option Nibble) (j : StackIndex) : (s.setKey k).getStack j = s.getStack j := rfl
@[simp] theorem State.setKey_readByte (k : Option Nibble) (c : Nat) : (s.setKey k).readByte c = s.readByte c := rfl

/-! ### setDisplay -/

@[simp] theorem State.setDisplay_cfg (d : Display) : (s.setDisplay d).cfg = s.cfg := rfl
@[simp] theorem State.setDisplay_v (d : Display) : (s.setDisplay d).v = s.v := rfl
@[simp] theorem State.setDisplay_i (d : Display) : (s.setDisplay d).i = s.i := rfl
@[simp] theorem State.setDisplay_pc (d : Display) : (s.setDisplay d).pc = s.pc := rfl
@[simp] theorem State.setDisplay_sp (d : Display) : (s.setDisplay d).sp = s.sp := rfl
@[simp] theorem State.setDisplay_stack (d : Display) : (s.setDisplay d).stack = s.stack := rfl
@[simp] theorem State.setDisplay_dt (d : Display) : (s.setDisplay d).dt = s.dt := rfl
@[simp] theorem State.setDisplay_st (d : Display) : (s.setDisplay d).st = s.st := rfl
@[simp] theorem State.setDisplay_mem (d : Display) : (s.setDisplay d).mem = s.mem := rfl
@[simp] theorem State.setDisplay_display (d : Display) : (s.setDisplay d).display = d := rfl
@[simp] theorem State.setDisplay_key (d : Display) : (s.setDisplay d).key = s.key := rfl
@[simp] theorem State.setDisplay_shiftQuirk (d : Display) : (s.setDisplay d).shiftQuirk = s.shiftQuirk := rfl
@[simp] theorem State.setDisplay_indexQuirk (d : Display) : (s.setDisplay d).indexQuirk = s.indexQuirk := rfl
@[simp] theorem State.setDisplay_booted (d : Display) : (s.setDisplay d).booted = s.booted := rfl
@[simp] theorem State.setDisplay_fault (d : Display) : (s.setDisplay d).fault = s.fault := rfl
@[simp] theorem State.setDisplay_audio (d : Display) : (s.setDisplay d).audio = s.audio := rfl
@[simp] theorem State.setDisplay_boots (d : Display) : (s.setDisplay d).boots = s.boots := rfl
@[simp] theorem State.setDisplay_randomDraws (d : Display) : (s.setDisplay d).randomDraws = s.randomDraws := rfl
@[simp] theorem State.setDisplay_underrunDraws (d : Display) : (s.setDisplay d).underrunDraws = s.underrunDraws := rfl
@[simp] theorem State.setDisplay_schedule (d : Display) : (s.setDisplay d).schedule = s.schedule := rfl
@[simp] theorem State.setDisplay_finished (d : Display) : (s.setDisplay d).finished = s.finished := rfl
@[simp] theorem State.setDisplay_getV (d : Display) (r : Nibble) : (s.setDisplay d).getV r = s.getV r := rfl
@[simp] theorem State.setDisplay_getStack (d : Display) (j : StackIndex) : (s.setDisplay d).getStack j = s.getStack j := rfl
@[simp] theorem State.setDisplay_readByte (d : Display) (c : Nat) : (s.setDisplay d).readByte c = s.readByte c := rfl

/-! ### countRandom -/

@[simp] theorem State.countRandom_cfg : (s.countRandom).cfg = s.cfg := rfl
@[simp] theorem State.countRandom_v : (s.countRandom).v = s.v := rfl
@[simp] theorem State.countRandom_i : (s.countRandom).i = s.i := rfl
@[simp] theorem State.countRandom_pc : (s.countRandom).pc = s.pc := rfl
@[simp] theorem State.countRandom_sp : (s.countRandom).sp = s.sp := rfl
@[simp] theorem State.countRandom_stack : (s.countRandom).stack = s.stack := rfl
@[simp] theorem State.countRandom_dt : (s.countRandom).dt = s.dt := rfl
@[simp] theorem State.countRandom_st : (s.countRandom).st = s.st := rfl
@[simp] theorem State.countRandom_mem : (s.countRandom).mem = s.mem := rfl
@[simp] theorem State.countRandom_display : (s.countRandom).display = s.display := rfl
@[simp] theorem State.countRandom_key : (s.countRandom).key = s.key := rfl
@[simp] theorem State.countRandom_shiftQuirk : (s.countRandom).shiftQuirk = s.shiftQuirk := rfl
@[simp] theorem State.countRandom_indexQuirk : (s.countRandom).indexQuirk = s.indexQuirk := rfl
@[simp] theorem State.countRandom_booted : (s.countRandom).booted = s.booted := rfl
@[simp] theorem State.countRandom_fault : (s.countRandom).fault = s.fault := rfl
@[simp] theorem State.countRandom_audio : (s.countRandom).audio = s.audio := rfl
@[simp] theorem State.countRandom_boots : (s.countRandom).boots = s.boots := rfl
@[simp] theorem State.countRandom_randomDraws : (s.countRandom).randomDraws = s.randomDraws + 1 := rfl
@[simp] theorem State.countRandom_underrunDraws : (s.countRandom).underrunDraws = s.underrunDraws := rfl
@[simp] theorem State.countRandom_schedule : (s.countRandom).schedule = s.schedule := rfl
@[simp] theorem State.countRandom_finished : (s.countRandom).finished = s.finished := rfl
@[simp] theorem State.countRandom_getV (r : Nibble) : (s.countRandom).getV r = s.getV r := rfl
@[simp] theorem State.countRandom_getStack (j : StackIndex) : (s.countRandom).getStack j = s.getStack j := rfl
@[simp] theorem State.countRandom_readByte (c : Nat) : (s.countRandom).readByte c = s.readByte c := rfl

/-! ### recordFault -/

@[simp] theorem State.recordFault_cfg (f : Fault) : (s.recordFault f).cfg = s.cfg := rfl
@[simp] theorem State.recordFault_v (f : Fault) : (s.recordFault f).v = s.v := rfl
@[simp] theorem State.recordFault_i (f : Fault) : (s.recordFault f).i = s.i := rfl
@[simp] theorem State.recordFault_pc (f : Fault) : (s.recordFault f).pc = s.pc := rfl
@[simp] theorem State.recordFault_sp (f : Fault) : (s.recordFault f).sp = s.sp := rfl
@[simp] theorem State.recordFault_stack (f : Fault) : (s.recordFault f).stack = s.stack := rfl
@[simp] theorem State.recordFault_dt (f : Fault) : (s.recordFault f).dt = s.dt := rfl
@[simp] theorem State.recordFault_st (f : Fault) : (s.recordFault f).st = s.st := rfl
@[simp] theorem State.recordFault_mem (f : Fault) : (s.recordFault f).mem = s.mem := rfl
@[simp] theorem State.recordFault_display (f : Fault) : (s.recordFault f).display = s.display := rfl
@[simp] theorem State.recordFault_key (f : Fault) : (s.recordFault f).key = s.key := rfl
@[simp] theorem State.recordFault_shiftQuirk (f : Fault) : (s.recordFault f).shiftQuirk = s.shiftQuirk := rfl
@[simp] theorem State.recordFault_indexQuirk (f : Fault) : (s.recordFault f).indexQuirk = s.indexQuirk := rfl
@[simp] theorem State.recordFault_booted (f : Fault) : (s.recordFault f).booted = s.booted := rfl
@[simp] theorem State.recordFault_fault (f : Fault) : (s.recordFault f).fault = some f := rfl
@[simp] theorem State.recordFault_audio (f : Fault) : (s.recordFault f).audio = s.audio := rfl
@[simp] theorem State.recordFault_boots (f : Fault) : (s.recordFault f).boots = s.boots := rfl
@[simp] theorem State.recordFault_randomDraws (f : Fault) : (s.recordFault f).randomDraws = s.randomDraws := rfl
@[simp] theorem State.recordFault_underrunDraws (f : Fault) : (s.recordFault f).underrunDraws = s.underrunDraws := rfl
@[simp] theorem State.recordFault_schedule (f : Fault) : (s.recordFault f).schedule = s.schedule := rfl
@[simp] theorem State.recordFault_finished (f : Fault) : (s.recordFault f).finished = s.finished := rfl
@[simp] theorem State.recordFault_getV (f : Fault) (r : Nibble) : (s.recordFault f).getV r = s.getV r := rfl
@[simp] theorem State.recordFault_getStack (f : Fault) (j : StackIndex) : (s.recordFault f).getStack j = s.getStack j := rfl
@[simp] theorem State.recordFault_readByte (f : Fault) (c : Nat) : (s.recordFault f).readByte c = s.readByte c := rfl

/-! ### writeByte -/

@[simp] theorem State.writeByte_cfg (a : Nat) (b : Byte) : (s.writeByte a b).cfg = s.cfg := rfl
@[simp] theorem State.writeByte_v (a : Nat) (b : Byte) : (s.writeByte a b).v = s.v := rfl
@[simp] theorem State.writeByte_i (a : Nat) (b : Byte) : (s.writeByte a b).i = s.i := rfl
@[simp] theorem State.writeByte_pc (a : Nat) (b : Byte) : (s.writeByte a b).pc = s.pc := rfl
@[simp] theorem State.writeByte_sp (a : Nat) (b : Byte) : (s.writeByte a b).sp = s.sp := rfl
@[simp] theorem State.writeByte_stack (a : Nat) (b : Byte) : (s.writeByte a b).stack = s.stack := rfl
@[simp] theorem State.writeByte_dt (a : Nat) (b : Byte) : (s.writeByte a b).dt = s.dt := rfl
@[simp] theorem State.writeByte_st (a : Nat) (b : Byte) : (s.writeByte a b).st = s.st := rfl
@[simp] theorem State.writeByte_mem (a : Nat) (b : Byte) : (s.writeByte a b).mem = memoryWrite s.cfg.font s.mem a b := rfl
@[simp] theorem State.writeByte_display (a : Nat) (b : Byte) : (s.writeByte a b).display = s.display := rfl
@[simp] theorem State.writeByte_key (a : Nat) (b : Byte) : (s.writeByte a b).key = s.key := rfl
@[simp] theorem State.writeByte_shiftQuirk (a : Nat) (b : Byte) : (s.writeByte a b).shiftQuirk = s.shiftQuirk := rfl
@[simp] theorem State.writeByte_indexQuirk (a : Nat) (b : Byte) : (s.writeByte a b).indexQuirk = s.indexQuirk := rfl
@[simp] theorem State.writeByte_booted (a : Nat) (b : Byte) : (s.writeByte a b).booted = s.booted := rfl
@[simp] theorem State.writeByte_fault (a : Nat) (b : Byte) : (s.writeByte a b).fault = s.fault := rfl
@[simp] theorem State.writeByte_audio (a : Nat) (b : Byte) : (s.writeByte a b).audio = s.audio := rfl
@[simp] theorem State.writeByte_boots (a : Nat) (b : Byte) : (s.writeByte a b).boots = s.boots := rfl
@[simp] theorem State.writeByte_randomDraws (a : Nat) (b : Byte) : (s.writeByte a b).randomDraws = s.randomDraws := rfl
@[simp] theorem State.writeByte_underrunDraws (a : Nat) (b : Byte) : (s.writeByte a b).underrunDraws = s.underrunDraws := rfl
@[simp] theorem State.writeByte_schedule (a : Nat) (b : Byte) : (s.writeByte a b).schedule = s.schedule := rfl
@[simp] theorem State.writeByte_finished (a : Nat) (b : Byte) : (s.writeByte a b).finished = s.finished := rfl
@[simp] theorem State.writeByte_getV (a : Nat) (b : Byte) (r : Nibble) : (s.writeByte a b).getV r = s.getV r := rfl
@[simp] theorem State.writeByte_getStack (a : Nat) (b : Byte) (j : StackIndex) : (s.writeByte a b).getStack j = s.getStack j := rfl

/-! ### pop -/

@[simp] theorem State.pop_cfg : (s.pop).cfg = s.cfg := rfl
@[simp] theorem State.pop_v : (s.pop).v = s.v := rfl
@[simp] theorem State.pop_i : (s.pop).i = s.i := rfl
@[simp] theorem State.pop_pc : (s.pop).pc = s.pc := rfl
@[simp] theorem State.pop_sp : (s.pop).sp = ⟨s.sp.val - 1, Nat.lt_of_le_of_lt (Nat.sub_le _ _) s.sp.isLt⟩ := rfl
@[simp] theorem State.pop_stack : (s.pop).stack = s.stack := rfl
@[simp] theorem State.pop_dt : (s.pop).dt = s.dt := rfl
@[simp] theorem State.pop_st : (s.pop).st = s.st := rfl
@[simp] theorem State.pop_mem : (s.pop).mem = s.mem := rfl
@[simp] theorem State.pop_display : (s.pop).display = s.display := rfl
@[simp] theorem State.pop_key : (s.pop).key = s.key := rfl
@[simp] theorem State.pop_shiftQuirk : (s.pop).shiftQuirk = s.shiftQuirk := rfl
@[simp] theorem State.pop_indexQuirk : (s.pop).indexQuirk = s.indexQuirk := rfl
@[simp] theorem State.pop_booted : (s.pop).booted = s.booted := rfl
@[simp] theorem State.pop_fault : (s.pop).fault = s.fault := rfl
@[simp] theorem State.pop_audio : (s.pop).audio = s.audio := rfl
@[simp] theorem State.pop_boots : (s.pop).boots = s.boots := rfl
@[simp] theorem State.pop_randomDraws : (s.pop).randomDraws = s.randomDraws := rfl
@[simp] theorem State.pop_underrunDraws : (s.pop).underrunDraws = s.underrunDraws := rfl
@[simp] theorem State.pop_schedule : (s.pop).schedule = s.schedule := rfl
@[simp] theorem State.pop_finished : (s.pop).finished = s.finished := rfl
@[simp] theorem State.pop_getV (r : Nibble) : (s.pop).getV r = s.getV r := rfl
@[simp] theorem State.pop_getStack (j : StackIndex) : (s.pop).getStack j = s.getStack j := rfl
@[simp] theorem State.pop_readByte (c : Nat) : (s.pop).readByte c = s.readByte c := rfl

/-! ### push -/

@[simp] theorem State.push_cfg (w : Word) (h : s.sp.val < Config.spMax) : (s.push w h).cfg = s.cfg := rfl
@[simp] theorem State.push_v (w : Word) (h : s.sp.val < Config.spMax) : (s.push w h).v = s.v := rfl
@[simp] theorem State.push_i (w : Word) (h : s.sp.val < Config.spMax) : (s.push w h).i = s.i := rfl
@[simp] theorem State.push_pc (w : Word) (h : s.sp.val < Config.spMax) : (s.push w h).pc = s.pc := rfl
@[simp] theorem State.push_sp (w : Word) (h : s.sp.val < Config.spMax) : (s.push w h).sp = ⟨s.sp.val + 1, Nat.succ_lt_succ h⟩ := rfl
@[simp] theorem State.push_stack (w : Word) (h : s.sp.val < Config.spMax) : (s.push w h).stack = s.stack.set (s.sp.val + 1) w (Nat.succ_lt_succ h) := rfl
@[simp] theorem State.push_dt (w : Word) (h : s.sp.val < Config.spMax) : (s.push w h).dt = s.dt := rfl
@[simp] theorem State.push_st (w : Word) (h : s.sp.val < Config.spMax) : (s.push w h).st = s.st := rfl
@[simp] theorem State.push_mem (w : Word) (h : s.sp.val < Config.spMax) : (s.push w h).mem = s.mem := rfl
@[simp] theorem State.push_display (w : Word) (h : s.sp.val < Config.spMax) : (s.push w h).display = s.display := rfl
@[simp] theorem State.push_key (w : Word) (h : s.sp.val < Config.spMax) : (s.push w h).key = s.key := rfl
@[simp] theorem State.push_shiftQuirk (w : Word) (h : s.sp.val < Config.spMax) : (s.push w h).shiftQuirk = s.shiftQuirk := rfl
@[simp] theorem State.push_indexQuirk (w : Word) (h : s.sp.val < Config.spMax) : (s.push w h).indexQuirk = s.indexQuirk := rfl
@[simp] theorem State.push_booted (w : Word) (h : s.sp.val < Config.spMax) : (s.push w h).booted = s.booted := rfl
@[simp] theorem State.push_fault (w : Word) (h : s.sp.val < Config.spMax) : (s.push w h).fault = s.fault := rfl
@[simp] theorem State.push_audio (w : Word) (h : s.sp.val < Config.spMax) : (s.push w h).audio = s.audio := rfl
@[simp] theorem State.push_boots (w : Word) (h : s.sp.val < Config.spMax) : (s.push w h).boots = s.boots := rfl
@[simp] theorem State.push_randomDraws (w : Word) (h : s.sp.val < Config.spMax) : (s.push w h).randomDraws = s.randomDraws := rfl
@[simp] theorem State.push_underrunDraws (w : Word) (h : s.sp.val < Config.spMax) : (s.push w h).underrunDraws = s.underrunDraws := rfl
@[simp] theorem State.push_schedule (w : Word) (h : s.sp.val < Config.spMax) : (s.push w h).schedule = s.schedule := rfl
@[simp] theorem State.push_finished (w : Word) (h : s.sp.val < Config.spMax) : (s.push w h).finished = s.finished := rfl
@[simp] theorem State.push_getV (w : Word) (h : s.sp.val < Config.spMax) (r : Nibble) : (s.push w h).getV r = s.getV r := rfl
@[simp] theorem State.push_readByte (w : Word) (h : s.sp.val < Config.spMax) (c : Nat) : (s.push w h).readByte c = s.readByte c := rfl

/-! ### The combined updates -/

@[simp] theorem State.setVF_eq (b : Byte) : s.setVF b = s.setV 0xF b := rfl
@[simp] theorem State.advance_eq : s.advance = s.setPc (s.pc + 2) := rfl

@[simp] theorem State.setPc_setPc (w w' : Word) : (s.setPc w).setPc w' = s.setPc w' := rfl

end Sys2Proof.Machine
end

