-- ==== Sys2Proof/Laws/Ops.lean ====
section
/-! SUPPORT. What each shared operation can do, said once: cell lists, memory and its canonical form, registers, the
stack, display cells, the range check, skips, WriteRF and fault entry. -/

namespace Sys2Proof.Machine

/-! ### Cell lists -/

theorem cellLookup_insert (m : List Host.Cell) (a : Nat) (b : Byte) (c : Nat) :
    cellLookup (cellInsert m a b) c = if c = a then some b else cellLookup m c := by
  induction m with
  | nil => simp [cellInsert, cellLookup, eq_comm]
  | cons p rest ih =>
    obtain ⟨k, d⟩ := p
    simp only [cellInsert]
    split
    · simp only [cellLookup, eq_comm]
    · split
      · subst a
        simp only [cellLookup, eq_comm]
        split <;> rfl
      · simp only [cellLookup, ih]
        by_cases hk : k = c <;> by_cases hc : c = a <;> simp_all

theorem mem_cellInsert {m : List Host.Cell} {a : Nat} {b : Byte} {c : Host.Cell}
    (h : c ∈ cellInsert m a b) : c = (a, b) ∨ c ∈ m := by
  induction m with
  | nil => simpa [cellInsert] using h
  | cons p rest ih =>
    obtain ⟨k, d⟩ := p
    simp only [cellInsert] at h
    split at h
    · simpa using h
    · split at h
      · rcases List.mem_cons.1 h with h | h
        · exact .inl h
        · exact .inr (List.mem_cons_of_mem _ h)
      · rcases List.mem_cons.1 h with h | h
        · exact .inr (h ▸ List.mem_cons_self)
        · exact (ih h).imp id (List.mem_cons_of_mem _)

theorem mem_cellErase {m : List Host.Cell} {a : Nat} {c : Host.Cell} (h : c ∈ cellErase m a) : c ∈ m := by
  induction m with
  | nil => simp [cellErase] at h
  | cons p rest ih =>
    obtain ⟨k, d⟩ := p
    simp only [cellErase] at h
    split at h
    · exact List.mem_cons_of_mem _ h
    · rcases List.mem_cons.1 h with h | h
      · exact h ▸ List.mem_cons_self
      · exact List.mem_cons_of_mem _ (ih h)

theorem cellsRising_insert {m : List Host.Cell} (h : cellsRising m) (a : Nat) (b : Byte) :
    cellsRising (cellInsert m a b) := by
  induction m with
  | nil => simp [cellInsert, cellsRising]
  | cons p rest ih =>
    obtain ⟨k, d⟩ := p
    rw [cellsRising, List.pairwise_cons] at h
    simp only [cellInsert]
    split
    · rename_i hak
      refine List.pairwise_cons.2 ⟨?_, List.pairwise_cons.2 h⟩
      intro q hq
      rcases List.mem_cons.1 hq with rfl | hq
      · exact hak
      · exact Nat.lt_trans hak (h.1 q hq)
    · split
      · rename_i _ hak
        exact List.pairwise_cons.2 ⟨fun q hq => hak ▸ h.1 q hq, h.2⟩
      · refine List.pairwise_cons.2 ⟨?_, ih h.2⟩
        intro q hq
        rcases mem_cellInsert hq with rfl | hq
        · show k < a
          omega
        · exact h.1 q hq

theorem cellsRising_erase {m : List Host.Cell} (h : cellsRising m) (a : Nat) : cellsRising (cellErase m a) := by
  induction m with
  | nil => simp [cellErase, cellsRising]
  | cons p rest ih =>
    obtain ⟨k, d⟩ := p
    rw [cellsRising, List.pairwise_cons] at h
    simp only [cellErase]
    split
    · exact h.2
    · exact List.pairwise_cons.2 ⟨fun q hq => h.1 q (mem_cellErase hq), ih h.2⟩

theorem cellLookup_eq_none {m : List Host.Cell} {a : Nat} (h : ∀ c ∈ m, c.1 ≠ a) : cellLookup m a = none := by
  induction m with
  | nil => rfl
  | cons p rest ih =>
    obtain ⟨k, d⟩ := p
    have hk : k ≠ a := h (k, d) List.mem_cons_self
    simp only [cellLookup, hk, if_false]
    exact ih fun c hc => h c (List.mem_cons_of_mem _ hc)

theorem cellLookup_erase {m : List Host.Cell} (h : cellsRising m) (a c : Nat) :
    cellLookup (cellErase m a) c = if c = a then none else cellLookup m c := by
  induction m with
  | nil => simp [cellErase, cellLookup]
  | cons p rest ih =>
    obtain ⟨k, d⟩ := p
    rw [cellsRising, List.pairwise_cons] at h
    simp only [cellErase]
    split
    · rename_i hk
      subst hk
      by_cases hc : c = k
      · subst hc
        rw [if_pos rfl]
        exact cellLookup_eq_none fun q hq => Nat.ne_of_gt (h.1 q hq)
      · rw [if_neg hc]
        simp only [cellLookup]
        rw [if_neg (Ne.symm hc)]
    · simp only [cellLookup, ih h.2]
      by_cases hk : k = c <;> by_cases hc : c = a <;> simp_all

theorem mem_cellsFrom {a : Nat} {bs : List Byte} {c : Host.Cell} (h : c ∈ cellsFrom a bs) :
    a ≤ c.1 ∧ c.1 < a + bs.length := by
  induction bs generalizing a with
  | nil => simp [cellsFrom] at h
  | cons b bs ih =>
    rcases List.mem_cons.1 h with rfl | h
    · simp
    · have := ih h
      simp only [List.length_cons]
      omega

theorem cellsRising_cellsFrom (a : Nat) (bs : List Byte) : cellsRising (cellsFrom a bs) := by
  induction bs generalizing a with
  | nil => simp [cellsFrom, cellsRising]
  | cons b bs ih => exact List.pairwise_cons.2 ⟨fun q hq => by have := mem_cellsFrom hq; show a < q.1; omega, ih _⟩

/-! ### Memory: the canonical form is kept, and reads see the last write (R68) -/

/-- The glyph set's addresses are those below 80. -/
@[simp] theorem inFont_eq (a : Nat) : inFont a = decide (a < 80) := by
  simp [inFont]

theorem memoryKnown_of_ge (font : Vector Byte Config.fontLen) {a : Nat} (h : 80 ≤ a) : memoryKnown font a = none := by
  simp [memoryKnown, Nat.not_lt.2 h]

/-- A constructed machine holds the glyph set at its addresses (R62, R370). -/
theorem readByte_constructed_font (p : Params) {a : Nat} (h : a < 80) :
    (State.constructed p).readByte a = p.font[a]'h := by
  simp [State.readByte, State.constructed, memoryRead, memoryUnlisted, memoryKnown, cellLookup, h]

theorem memoryWrite_wf {font : Vector Byte Config.fontLen} {m : Memory} (h : Memory.wf font m) {a : Nat} (ha : a < Config.memSize)
    (b : Byte) : Memory.wf font (memoryWrite font m a b) := by
  unfold memoryWrite
  split
  · exact ⟨cellsRising_erase h.1 a, fun c hc => h.2 c (mem_cellErase hc)⟩
  · rename_i hb
    refine ⟨cellsRising_insert h.1 a b, fun c hc => ?_⟩
    rcases mem_cellInsert hc with rfl | hc
    · exact ⟨ha, hb⟩
    · exact h.2 c hc

theorem memoryRead_write {font : Vector Byte Config.fontLen} {m : Memory} (h : cellsRising m) (boots a : Nat) (b : Byte) (c : Nat) :
    memoryRead font boots (memoryWrite font m a b) c = if c = a then b else memoryRead font boots m c := by
  unfold memoryRead memoryWrite
  split
  · rename_i hb
    rw [cellLookup_erase h]
    by_cases hc : c = a
    · subst hc
      simp [memoryUnlisted, hb]
    · simp [hc]
  · rw [cellLookup_insert]
    by_cases hc : c = a <;> simp [hc]

theorem memoryWrite_rising {font : Vector Byte Config.fontLen} {m : Memory} (h : cellsRising m) (a : Nat) (b : Byte) :
    cellsRising (memoryWrite font m a b) := by
  unfold memoryWrite
  split
  · exact cellsRising_erase h a
  · exact cellsRising_insert h a b

theorem bootMemory_wf {font : Vector Byte Config.fontLen} {m : Memory} (h : Memory.wf font m) (image : List Byte) :
    Memory.wf font (bootMemory m image) := by
  have himg : (image.take Config.progMax).length ≤ Config.progMax := List.length_take_le _ _
  constructor
  · refine List.pairwise_append.2 ⟨h.1.filter _, cellsRising_cellsFrom _ _, fun p hp q hq => ?_⟩
    have h1 := (List.mem_filter.1 hp).2
    have h2 := mem_cellsFrom hq
    simp only [inFont_eq, decide_eq_true_eq, Config.progBase] at h1 h2
    omega
  · intro c hc
    rcases List.mem_append.1 hc with hc | hc
    · exact h.2 c (List.mem_filter.1 hc).1
    · have h2 := mem_cellsFrom hc
      simp only [Config.progMax, Config.progBase, Config.memSize] at *
      refine ⟨by omega, ?_⟩
      rw [memoryKnown_of_ge font (by omega)]
      simp

theorem State.readByte_writeByte {s : State} (h : cellsRising s.mem) (a : Nat) (b : Byte) (c : Nat) :
    (s.writeByte a b).readByte c = if c = a then b else s.readByte c :=
  memoryRead_write h s.boots a b c

theorem writeBytes_mem_rising {s : State} (h : cellsRising s.mem) (a : Nat) (bs : List Byte) :
    cellsRising (writeBytes a bs s).mem := by
  induction bs generalizing a s with
  | nil => exact h
  | cons b bs ih => exact ih (memoryWrite_rising h a b) (a + 1)

/-- Everything writeBytes does: the bytes at their addresses, and no other byte. -/
theorem readByte_writeBytes {s : State} (h : cellsRising s.mem) (a : Nat) (bs : List Byte) (c : Nat) :
    (writeBytes a bs s).readByte c = if a ≤ c then (bs[c - a]?).getD (s.readByte c) else s.readByte c := by
  induction bs generalizing a s with
  | nil => simp [writeBytes]
  | cons b bs ih =>
    rw [writeBytes, ih (memoryWrite_rising h a b), State.readByte_writeByte h]
    by_cases hca : c = a
    · subst hca
      simp
    · by_cases hlt : a ≤ c
      · have h1 : a + 1 ≤ c := by omega
        obtain ⟨k, hk⟩ : ∃ k, c - a = k + 1 := ⟨c - a - 1, by omega⟩
        have hk' : c - (a + 1) = k := by omega
        simp [h1, hlt, hca, hk, hk']
      · have h1 : ¬ a + 1 ≤ c := by omega
        simp [h1, hlt, hca]

theorem writeBytes_wf {s : State} (h : Memory.wf s.cfg.font s.mem) {a : Nat} {bs : List Byte}
    (hr : a + bs.length ≤ Config.memSize) : Memory.wf s.cfg.font (writeBytes a bs s).mem := by
  induction bs generalizing a s with
  | nil => exact h
  | cons b bs ih =>
    simp only [List.length_cons] at hr
    exact ih (s := s.writeByte a b) (memoryWrite_wf h (by omega) b) (by omega)

/-- writeBytes changes memory and nothing else. -/
theorem writeBytes_eq (a : Nat) (bs : List Byte) (s : State) :
    writeBytes a bs s = { s with mem := (writeBytes a bs s).mem } := by
  induction bs generalizing a s with
  | nil => rfl
  | cons b bs ih =>
    rw [writeBytes, ih]
    rfl

/-! ### Registers, stack, display -/

theorem State.getV_setV (s : State) (x : Nibble) (b : Byte) (r : Nibble) :
    (s.setV x b).getV r = if r = x then b else s.getV r := by
  simp only [State.getV, State.setV, Vector.getElem_set, ← BitVec.toNat_inj]
  by_cases h : r.toNat = x.toNat
  · simp [h]
  · simp [h, Ne.symm h]

@[simp] theorem State.getV_setV_self (s : State) (x : Nibble) (b : Byte) : (s.setV x b).getV x = b := by
  simp [State.getV_setV]

theorem State.getV_setV_ne (s : State) {x r : Nibble} (h : r ≠ x) (b : Byte) : (s.setV x b).getV r = s.getV r := by
  simp [State.getV_setV, h]

theorem State.getStack_push (s : State) (w : Word) (h : s.sp.val < Config.spMax) (j : StackIndex) :
    (s.push w h).getStack j = if j.val = s.sp.val + 1 then w else s.getStack j := by
  simp only [State.getStack, State.push_stack, Vector.getElem_set]
  by_cases hj : j.val = s.sp.val + 1
  · simp [hj]
  · simp [hj, Ne.symm hj]

theorem Display.get_put (d : Display) (row : Row) (col : Col) (p : Pixel) (row' : Row) (col' : Col) :
    Display.get (Display.put d row col p) row' col' = if row' = row ∧ col' = col then p else Display.get d row' col' := by
  simp only [Display.get, Display.put, Vector.getElem_set, Fin.ext_iff]
  by_cases hr : row'.val = row.val
  · by_cases hc : col'.val = col.val
    · simp [hr, hc]
    · simp [hr, hc, Ne.symm hc]
  · simp [hr, Ne.symm hr]

@[simp] theorem Display.get_clear (row : Row) (col : Col) : Display.get Display.clear row col = .off := by
  simp [Display.get, Display.clear]

/-- Everything loadRegs does: the first `n` registers from memory, and nothing else. -/
theorem getV_loadRegs (base n : Nat) (hn : n ≤ 16) (s : State) (r : Nibble) :
    (loadRegs base n s).getV r = if r.toNat < n then s.readByte (base + r.toNat) else s.getV r := by
  induction n with
  | zero => simp [loadRegs]
  | succ n ih =>
    rw [loadRegs, State.getV_setV, ih (by omega)]
    have hn4 : (BitVec.ofNat 4 n).toNat = n := by rw [BitVec.toNat_ofNat]; omega
    by_cases hr : r = BitVec.ofNat 4 n
    · subst hr
      simp [hn4]
    · have : r.toNat ≠ n := fun h => hr (by rw [← BitVec.toNat_inj, hn4, h])
      have hiff : r.toNat < n + 1 ↔ r.toNat < n := by omega
      simp [hr, hiff]

theorem loadRegs_eq (base n : Nat) (s : State) : loadRegs base n s = { s with v := (loadRegs base n s).v } := by
  induction n with
  | zero => rfl
  | succ n ih =>
    rw [loadRegs, ih]
    rfl

/-! ### Skips, WriteRF, ranges, faults -/

theorem skipIf_true (s : State) : skipIf s true = .next (s.setPc (s.pc + 2)) := rfl
theorem skipIf_false (s : State) : skipIf s false = .next s := rfl

/-- Everything WriteRF does to the registers, in either FLAG_ORDER (R161). -/
theorem getV_writeRF (s : State) (x : Nibble) (r f : Byte) (q : Nibble) :
    (writeRF s x r f).getV q =
      if q = x ∧ q = 0xF then (if s.cfg.flagOrder = .flagLast then f else r)
      else if q = x then r else if q = 0xF then f else s.getV q := by
  unfold writeRF
  cases s.cfg.flagOrder <;> simp only [State.setVF_eq, State.getV_setV] <;> split <;> split <;> simp_all

theorem writeRF_eq (s : State) (x : Nibble) (r f : Byte) :
    writeRF s x r f = { s with v := (writeRF s x r f).v } := by
  unfold writeRF
  cases s.cfg.flagOrder <;> rfl

/-- The two cases of a range-checked instruction (R67). -/
theorem withRange_cases (s : State) (n : Nat) (e : Result) :
    (s.rangeFaults n = true ∧ withRange s n e = takeFault s (.memOutOfRange s.lowestOut))
      ∨ (s.rangeFaults n = false ∧ withRange s n e = e) := by
  unfold withRange
  cases h : s.rangeFaults n <;> simp

/-- Everything fault entry does (R302). -/
theorem takeFault_eq (s : State) (f : Fault) :
    takeFault s f = .next { s with pc := s.pc - 2, fault := some f } := rfl

/-- In a step, `pc` is back at the instruction's own address (R302). -/
theorem State.ia_advance (s : State) : s.advance.ia = s.pc := by
  show s.pc + 2 - 2 = s.pc
  exact BitVec.add_sub_cancel _ _

/-- State.reset is BOOT of an empty image on a constructed machine (R371, R372; log 1). -/
theorem reset_eq_boot : (State.constructed Config.resetParams).boot [] = State.reset := rfl

/-- Memory at reset has its canonical form. -/
theorem reset_memory_wf : Memory.wf State.reset.cfg.font State.reset.mem := by
  constructor
  · exact List.Pairwise.nil
  · intro c hc
    cases hc

end Sys2Proof.Machine
end

