-- ==== Sys2Proof/Laws/PerInstr.lean ====
section
/-! SUPPORT. One lemma for each constructor of Instr, for the family Encoding: the word of an instruction carries the fixed
bits of its own row of the opcode map (spec/30_encoding.md R95). -/

namespace Sys2Proof.Laws.Encoding

/-- The encoding of an instruction matches its row of R95. -/
def Statement (i : Instr) : Prop := matchesRow (encode i) i = true

theorem cls : Statement .cls := rfl

theorem ret : Statement .ret := rfl

theorem jp (nnn : Addr12) : Statement (.jp nnn) := by
  simp only [Statement, matchesRow, encode, rowMask, rowMatch, and_F000, fieldOp_formA]
  decide

theorem call (nnn : Addr12) : Statement (.call nnn) := by
  simp only [Statement, matchesRow, encode, rowMask, rowMatch, and_F000, fieldOp_formA]
  decide

theorem seImm (x : Nibble) (kk : Byte) : Statement (.seImm x kk) := by
  simp only [Statement, matchesRow, encode, rowMask, rowMatch, and_F000, fieldOp_formXK]
  decide

theorem sneImm (x : Nibble) (kk : Byte) : Statement (.sneImm x kk) := by
  simp only [Statement, matchesRow, encode, rowMask, rowMatch, and_F000, fieldOp_formXK]
  decide

theorem seReg (x y : Nibble) : Statement (.seReg x y) := by
  simp only [Statement, matchesRow, encode, rowMask, rowMatch, and_F00F, fieldOp_formXYN, fieldN_formXYN]
  decide

theorem ldImm (x : Nibble) (kk : Byte) : Statement (.ldImm x kk) := by
  simp only [Statement, matchesRow, encode, rowMask, rowMatch, and_F000, fieldOp_formXK]
  decide

theorem addImm (x : Nibble) (kk : Byte) : Statement (.addImm x kk) := by
  simp only [Statement, matchesRow, encode, rowMask, rowMatch, and_F000, fieldOp_formXK]
  decide

theorem ldReg (x y : Nibble) : Statement (.ldReg x y) := by
  simp only [Statement, matchesRow, encode, rowMask, rowMatch, and_F00F, fieldOp_formXYN, fieldN_formXYN]
  decide

theorem orReg (x y : Nibble) : Statement (.orReg x y) := by
  simp only [Statement, matchesRow, encode, rowMask, rowMatch, and_F00F, fieldOp_formXYN, fieldN_formXYN]
  decide

theorem andReg (x y : Nibble) : Statement (.andReg x y) := by
  simp only [Statement, matchesRow, encode, rowMask, rowMatch, and_F00F, fieldOp_formXYN, fieldN_formXYN]
  decide

theorem xorReg (x y : Nibble) : Statement (.xorReg x y) := by
  simp only [Statement, matchesRow, encode, rowMask, rowMatch, and_F00F, fieldOp_formXYN, fieldN_formXYN]
  decide

theorem addReg (x y : Nibble) : Statement (.addReg x y) := by
  simp only [Statement, matchesRow, encode, rowMask, rowMatch, and_F00F, fieldOp_formXYN, fieldN_formXYN]
  decide

theorem subReg (x y : Nibble) : Statement (.subReg x y) := by
  simp only [Statement, matchesRow, encode, rowMask, rowMatch, and_F00F, fieldOp_formXYN, fieldN_formXYN]
  decide

theorem shr (x y : Nibble) : Statement (.shr x y) := by
  simp only [Statement, matchesRow, encode, rowMask, rowMatch, and_F00F, fieldOp_formXYN, fieldN_formXYN]
  decide

theorem subn (x y : Nibble) : Statement (.subn x y) := by
  simp only [Statement, matchesRow, encode, rowMask, rowMatch, and_F00F, fieldOp_formXYN, fieldN_formXYN]
  decide

theorem shl (x y : Nibble) : Statement (.shl x y) := by
  simp only [Statement, matchesRow, encode, rowMask, rowMatch, and_F00F, fieldOp_formXYN, fieldN_formXYN]
  decide

theorem sneReg (x y : Nibble) : Statement (.sneReg x y) := by
  simp only [Statement, matchesRow, encode, rowMask, rowMatch, and_F00F, fieldOp_formXYN, fieldN_formXYN]
  decide

theorem ldI (nnn : Addr12) : Statement (.ldI nnn) := by
  simp only [Statement, matchesRow, encode, rowMask, rowMatch, and_F000, fieldOp_formA]
  decide

theorem jpV0 (nnn : Addr12) : Statement (.jpV0 nnn) := by
  simp only [Statement, matchesRow, encode, rowMask, rowMatch, and_F000, fieldOp_formA]
  decide

theorem rnd (x : Nibble) (kk : Byte) : Statement (.rnd x kk) := by
  simp only [Statement, matchesRow, encode, rowMask, rowMatch, and_F000, fieldOp_formXK]
  decide

theorem drw (x y n : Nibble) : Statement (.drw x y n) := by
  simp only [Statement, matchesRow, encode, rowMask, rowMatch, and_F000, fieldOp_formXYN]
  decide

theorem skp (x : Nibble) : Statement (.skp x) := by
  simp only [Statement, matchesRow, encode, rowMask, rowMatch, and_F0FF, fieldOp_formXK, fieldKK_formXK]
  decide

theorem sknp (x : Nibble) : Statement (.sknp x) := by
  simp only [Statement, matchesRow, encode, rowMask, rowMatch, and_F0FF, fieldOp_formXK, fieldKK_formXK]
  decide

theorem ldVDt (x : Nibble) : Statement (.ldVDt x) := by
  simp only [Statement, matchesRow, encode, rowMask, rowMatch, and_F0FF, fieldOp_formXK, fieldKK_formXK]
  decide

theorem ldVK (x : Nibble) : Statement (.ldVK x) := by
  simp only [Statement, matchesRow, encode, rowMask, rowMatch, and_F0FF, fieldOp_formXK, fieldKK_formXK]
  decide

theorem ldDt (x : Nibble) : Statement (.ldDt x) := by
  simp only [Statement, matchesRow, encode, rowMask, rowMatch, and_F0FF, fieldOp_formXK, fieldKK_formXK]
  decide

theorem ldSt (x : Nibble) : Statement (.ldSt x) := by
  simp only [Statement, matchesRow, encode, rowMask, rowMatch, and_F0FF, fieldOp_formXK, fieldKK_formXK]
  decide

theorem addI (x : Nibble) : Statement (.addI x) := by
  simp only [Statement, matchesRow, encode, rowMask, rowMatch, and_F0FF, fieldOp_formXK, fieldKK_formXK]
  decide

theorem ldF (x : Nibble) : Statement (.ldF x) := by
  simp only [Statement, matchesRow, encode, rowMask, rowMatch, and_F0FF, fieldOp_formXK, fieldKK_formXK]
  decide

theorem ldB (x : Nibble) : Statement (.ldB x) := by
  simp only [Statement, matchesRow, encode, rowMask, rowMatch, and_F0FF, fieldOp_formXK, fieldKK_formXK]
  decide

theorem ldMemV (x : Nibble) : Statement (.ldMemV x) := by
  simp only [Statement, matchesRow, encode, rowMask, rowMatch, and_F0FF, fieldOp_formXK, fieldKK_formXK]
  decide

theorem ldVMem (x : Nibble) : Statement (.ldVMem x) := by
  simp only [Statement, matchesRow, encode, rowMask, rowMatch, and_F0FF, fieldOp_formXK, fieldKK_formXK]
  decide

end Sys2Proof.Laws.Encoding
end

