-- ==== Sys2Proof/Laws/Pixels.lean ====
section
/-! SUPPORT. What drawing does to every cell, said once: a bit, a row, a sprite (spec/46_display.md R254, R255). -/

namespace Sys2Proof.Machine

theorem get_flipPixel (d : Drawing) (row : Row) (col : Col) (r : Row) (c : Col) :
    Display.get (flipPixel d row col).1 r c =
      if r = row ∧ c = col then otherPixel (Display.get d.1 r c) else Display.get d.1 r c := by
  unfold flipPixel
  cases h : Display.get d.1 row col <;> simp only [Display.get_put] <;> split
  all_goals first
    | rfl
    | (rename_i hrc; obtain ⟨rfl, rfl⟩ := hrc; rw [h]; rfl)

theorem hit_flipPixel (d : Drawing) (row : Row) (col : Col) :
    (flipPixel d row col).2 = true ↔ d.2 = true ∨ Display.get d.1 row col = .on := by
  unfold flipPixel
  cases h : Display.get d.1 row col <;> simp

/-- One of the first `m` bits of a sprite byte is set and addresses column `c`. -/
def rowCovers (b : Byte) (x0 m : Nat) (c : Col) : Prop := ∃ k, k < m ∧ spriteBit b k = true ∧ c = wrapCol (x0 + k)

theorem wrapCol_inj {x0 j k : Nat} (hj : j < 8) (hk : k < 8) (h : wrapCol (x0 + j) = wrapCol (x0 + k)) : j = k := by
  have := congrArg Fin.val h
  simp only [wrapCol, Config.displayW] at this
  omega

theorem wrapRow_inj {y0 j k : Nat} (hj : j < 32) (hk : k < 32) (h : wrapRow (y0 + j) = wrapRow (y0 + k)) : j = k := by
  have := congrArg Fin.val h
  simp only [wrapRow, Config.displayH] at this
  omega

theorem rowCovers_succ (b : Byte) (x0 m : Nat) (c : Col) :
    rowCovers b x0 (m + 1) c ↔ rowCovers b x0 m c ∨ (spriteBit b m = true ∧ c = wrapCol (x0 + m)) := by
  constructor
  · rintro ⟨k, hk, h⟩
    rcases Nat.lt_succ_iff_lt_or_eq.1 hk with hk | rfl
    · exact .inl ⟨k, hk, h⟩
    · exact .inr h
  · rintro (⟨k, hk, h⟩ | h)
    · exact ⟨k, by omega, h⟩
    · exact ⟨m, by omega, h⟩

open Classical in
/-- The first `m` bits of a sprite row: each covered cell is flipped once, and a hit is a covered cell that was on. -/
theorem drawBits_spec (b : Byte) (row : Row) (x0 : Nat) (d : Drawing) (m : Nat) (hm : m ≤ 8) :
    (∀ r c, Display.get ((List.range m).foldl (drawBit b row x0) d).1 r c =
      if r = row ∧ rowCovers b x0 m c then otherPixel (Display.get d.1 r c) else Display.get d.1 r c)
    ∧ (((List.range m).foldl (drawBit b row x0) d).2 = true ↔
      d.2 = true ∨ ∃ c, rowCovers b x0 m c ∧ Display.get d.1 row c = .on) := by
  induction m with
  | zero => simp [rowCovers]
  | succ m ih =>
    obtain ⟨ihp, ihh⟩ := ih (by omega)
    have hnew : ¬ rowCovers b x0 m (wrapCol (x0 + m)) := by
      rintro ⟨k, hk, -, h⟩
      have := wrapCol_inj (by omega) (by omega) h
      omega
    rw [List.range_succ, List.foldl_append]
    simp only [List.foldl_cons, List.foldl_nil, drawBit]
    by_cases hb : spriteBit b m = true
    · rw [if_pos hb]
      refine ⟨fun r c => ?_, ?_⟩
      · rw [get_flipPixel, ihp]
        by_cases hr : r = row
        · by_cases hc : c = wrapCol (x0 + m)
          · subst hc
            simp [hr, hnew, rowCovers_succ, hb]
          · simp [hr, hc, rowCovers_succ]
        · simp [hr]
      · rw [hit_flipPixel, ihh, ihp]
        constructor
        · rintro ((h | ⟨c, hc, h⟩) | h)
          · exact .inl h
          · exact .inr ⟨c, (rowCovers_succ ..).2 (.inl hc), h⟩
          · refine .inr ⟨_, (rowCovers_succ ..).2 (.inr ⟨hb, rfl⟩), ?_⟩
            simpa [hnew] using h
        · rintro (h | ⟨c, hc, h⟩)
          · exact .inl (.inl h)
          · rcases (rowCovers_succ ..).1 hc with hc | ⟨-, rfl⟩
            · exact .inl (.inr ⟨c, hc, h⟩)
            · exact .inr (by simpa [hnew] using h)
    · rw [if_neg hb]
      have hiff : ∀ c, rowCovers b x0 (m + 1) c ↔ rowCovers b x0 m c := by
        intro c
        simp [rowCovers_succ, hb]
      simp only [hiff]
      exact ⟨ihp, ihh⟩

/-- One of the first `n` rows of a sprite has a set bit that addresses the cell. -/
def sheetCovers (byteOf : Nat → Byte) (x0 y0 n : Nat) (r : Row) (c : Col) : Prop :=
  ∃ k, k < n ∧ r = wrapRow (y0 + k) ∧ rowCovers (byteOf k) x0 8 c

open Classical in
/-- The first `n` rows of a sprite, at most 32: each covered cell is flipped once, and a hit is a covered cell that was
on (R254, R255). -/
theorem drawRows_spec (byteOf : Nat → Byte) (x0 y0 : Nat) (d : Drawing) (n : Nat) (hn : n ≤ 32) :
    (∀ r c, Display.get ((List.range n).foldl (fun d k => drawRow (byteOf k) (wrapRow (y0 + k)) x0 d) d).1 r c =
      if sheetCovers byteOf x0 y0 n r c then otherPixel (Display.get d.1 r c) else Display.get d.1 r c)
    ∧ (((List.range n).foldl (fun d k => drawRow (byteOf k) (wrapRow (y0 + k)) x0 d) d).2 = true ↔
      d.2 = true ∨ ∃ r c, sheetCovers byteOf x0 y0 n r c ∧ Display.get d.1 r c = .on) := by
  induction n with
  | zero => simp [sheetCovers]
  | succ n ih =>
    obtain ⟨ihp, ihh⟩ := ih (by omega)
    have hsucc : ∀ r c, sheetCovers byteOf x0 y0 (n + 1) r c ↔
        sheetCovers byteOf x0 y0 n r c ∨ (r = wrapRow (y0 + n) ∧ rowCovers (byteOf n) x0 8 c) := by
      intro r c
      constructor
      · rintro ⟨k, hk, h⟩
        rcases Nat.lt_succ_iff_lt_or_eq.1 hk with hk | rfl
        · exact .inl ⟨k, hk, h⟩
        · exact .inr h
      · rintro (⟨k, hk, h⟩ | h)
        · exact ⟨k, by omega, h⟩
        · exact ⟨n, by omega, h⟩
    have hnew : ∀ c, ¬ sheetCovers byteOf x0 y0 n (wrapRow (y0 + n)) c := by
      rintro c ⟨k, hk, h, -⟩
      have := wrapRow_inj (by omega) (by omega) h
      omega
    rw [List.range_succ, List.foldl_append]
    simp only [List.foldl_cons, List.foldl_nil]
    obtain ⟨hp, hh⟩ := drawBits_spec (byteOf n) (wrapRow (y0 + n)) x0
      ((List.range n).foldl (fun d k => drawRow (byteOf k) (wrapRow (y0 + k)) x0 d) d) 8 (Nat.le_refl 8)
    refine ⟨fun r c => ?_, ?_⟩
    · rw [drawRow, hp, ihp]
      by_cases hr : r = wrapRow (y0 + n)
      · subst hr
        simp [hsucc, hnew]
      · simp [hsucc, hr]
    · rw [drawRow, hh, ihh]
      constructor
      · rintro ((h | ⟨r, c, hc, h⟩) | ⟨c, hc, h⟩)
        · exact .inl h
        · exact .inr ⟨r, c, (hsucc r c).2 (.inl hc), h⟩
        · rw [ihp, if_neg (hnew c)] at h
          exact .inr ⟨_, c, (hsucc _ c).2 (.inr ⟨rfl, hc⟩), h⟩
      · rintro (h | ⟨r, c, hc, h⟩)
        · exact .inl (.inl h)
        · rcases (hsucc r c).1 hc with hold | ⟨rfl, hrow⟩
          · exact .inl (.inr ⟨r, c, hold, h⟩)
          · refine .inr ⟨c, hrow, ?_⟩
            rw [ihp, if_neg (hnew c)]
            exact h

theorem sheetCovers_iff (s : State) (x0 y0 n : Nat) (r : Row) (c : Col) :
    sheetCovers (fun k => s.readByte (s.i.toNat + k)) x0 y0 n r c ↔ s.spriteCovers x0 y0 n r c := by
  constructor
  · rintro ⟨k, hk, hr, j, hj, hb, hc⟩
    exact ⟨k, j, hk, hj, hb, congrArg Fin.val hr, congrArg Fin.val hc⟩
  · rintro ⟨k, j, hk, hj, hb, hr, hc⟩
    exact ⟨k, hk, Fin.ext hr, j, hj, hb, Fin.ext hc⟩

open Classical in
/-- Everything State.drawSprite does: each covered cell is flipped, every other kept, and the collision is a covered cell
that was on. -/
theorem drawSprite_spec (s : State) (x0 y0 n : Nat) (hn : n ≤ 32) :
    (∀ r c, Display.get (s.drawSprite x0 y0 n).1 r c =
      if s.spriteCovers x0 y0 n r c then otherPixel (Display.get s.display r c) else Display.get s.display r c)
    ∧ ((s.drawSprite x0 y0 n).2 = true ↔
      ∃ r c, s.spriteCovers x0 y0 n r c ∧ Display.get s.display r c = .on) := by
  obtain ⟨hp, hh⟩ := drawRows_spec (fun k => s.readByte (s.i.toNat + k)) x0 y0 (s.display, false) n hn
  simp only [sheetCovers_iff] at hp hh
  exact ⟨hp, by simpa [State.drawSprite] using hh⟩

end Sys2Proof.Machine
end

