-- ==== Sys2Proof/Laws/Sound.lean ====
section
/-! SUPPORT. What the producer of the ring buffer does, said once (spec/60_exceptions.md R322). -/

namespace Sys2Proof.Machine

/-- The parts of the audio state that writing bytes leaves: everything but data and write_cursor. -/
theorem putBytes_rest (p : Params) (bs : List Byte) (a : Audio) :
    let a' := bs.foldl (Audio.putByte p) a
    a'.playCursor = a.playCursor ∧ a'.length = a.length ∧ a'.runningSampleIndex = a.runningSampleIndex
      ∧ a'.overrun = a.overrun ∧ a'.underrun = a.underrun := by
  induction bs generalizing a with
  | nil => simp
  | cons b bs ih => simpa [Audio.putByte] using ih (Audio.putByte p a b)

/-- write_cursor advances by the bytes written, mod CAP. -/
theorem putBytes_writeCursor (p : Params) (bs : List Byte) (a : Audio) (h : a.writeCursor < p.cap) :
    (bs.foldl (Audio.putByte p) a).writeCursor = (a.writeCursor + bs.length) % p.cap := by
  induction bs generalizing a with
  | nil => simp [Nat.mod_eq_of_lt h]
  | cons b bs ih =>
    rw [List.foldl_cons, ih _ (Nat.mod_lt _ (by omega))]
    show ((a.writeCursor + 1) % p.cap + bs.length) % p.cap = _
    rw [Nat.mod_add_mod, List.length_cons, Nat.add_assoc, Nat.add_comm 1]

/-- data keeps each written offset listed once, in rising order. -/
theorem putBytes_rising (p : Params) (bs : List Byte) (a : Audio) (h : cellsRising a.data) :
    cellsRising (bs.foldl (Audio.putByte p) a).data := by
  induction bs generalizing a with
  | nil => exact h
  | cons b bs ih => exact ih _ (cellsRising_insert h _ _)

/-- A configuration is well formed exactly when it is not refused (R320). -/
theorem audioWellFormed_iff (p : Params) : p.audioWellFormed = true ↔ ¬ BadAudio p := by
  simp only [Params.audioWellFormed, Params.halfPeriod, BadAudio, Bool.and_eq_true, bne_iff_ne]
  tauto

/-- Bytes of a frame: FRAME_BYTES of them (R320). -/
theorem frameOf_length (p : Params) (sample : Int) : (frameOf p sample).length = p.frameBytes := by
  simp [frameOf, encodeSample, Params.frameBytes, List.length_flatten]

/-- `k` frames advance the sample index by `k` (R322, R324). -/
theorem putFrames_index (p : Params) (play : Bool) (k : Nat) (a : Audio) :
    (Audio.putFrames p play k a).runningSampleIndex = a.runningSampleIndex + k := by
  induction k generalizing a with
  | zero => rfl
  | succ k ih =>
    rw [Audio.putFrames, ih]
    have := (putBytes_rest p (frameOf p (sampleValue p play a.runningSampleIndex)) a).2.2.1
    show (_ + 1) + k = _
    rw [this]
    omega

/-- `k` frames leave the consumer's part and the sticky bits. -/
theorem putFrames_rest (p : Params) (play : Bool) (k : Nat) (a : Audio) :
    (Audio.putFrames p play k a).playCursor = a.playCursor ∧ (Audio.putFrames p play k a).length = a.length
      ∧ (Audio.putFrames p play k a).overrun = a.overrun ∧ (Audio.putFrames p play k a).underrun = a.underrun := by
  induction k generalizing a with
  | zero => exact ⟨rfl, rfl, rfl, rfl⟩
  | succ k ih =>
    obtain ⟨h1, h2, h3, h4⟩ := ih (Audio.putFrame p play a)
    obtain ⟨g1, g2, -, g4, g5⟩ := putBytes_rest p (frameOf p (sampleValue p play a.runningSampleIndex)) a
    exact ⟨h1.trans g1, h2.trans g2, h3.trans g4, h4.trans g5⟩

/-- A byte of data after a write: the one written at write_cursor, or as before. -/
theorem byteAt_putByte (p : Params) (a : Audio) (b : Byte) (j : Nat) :
    (Audio.putByte p a b).byteAt j = if j = a.writeCursor then b else a.byteAt j := by
  unfold Audio.byteAt Audio.putByte
  rw [cellLookup_insert]
  by_cases h : j = a.writeCursor <;> simp [h]

/-- A sample index set before bytes are written does not matter to them. -/
theorem putBytes_index (p : Params) (bs : List Byte) (a : Audio) (n m : Nat) :
    { bs.foldl (Audio.putByte p) { a with runningSampleIndex := n } with runningSampleIndex := m }
      = { bs.foldl (Audio.putByte p) a with runningSampleIndex := m } := by
  induction bs generalizing a n with
  | nil => rfl
  | cons b bs ih => exact ih (Audio.putByte p a b) n

/-- What an index contributes is the square wave (R321). -/
theorem sampleValue_eq (p : Params) (play : Bool) (idx : Nat) : sampleValue p play idx = squareWave p play idx := by
  cases play <;> simp [sampleValue, squareWave, Params.halfPeriod]

/-- Bytes of `k` frames. -/
theorem waveFrames_length (p : Params) (play : Bool) (idx k : Nat) :
    (waveFrames p play idx k).length = k * p.frameBytes := by
  have key : ∀ v, (List.replicate p.channels (encodeSample p v)).flatten.length = p.frameBytes := frameOf_length p
  rw [waveFrames, List.length_flatten, List.map_map]
  simp only [Function.comp_def, key]
  simp

/-- The frames from an index on: the first one, then those from the next index on. -/
theorem waveFrames_succ (p : Params) (play : Bool) (idx k : Nat) :
    waveFrames p play idx (k + 1) = frameOf p (sampleValue p play idx) ++ waveFrames p play (idx + 1) k := by
  simp only [waveFrames, List.range_succ_eq_map, List.map_cons, List.flatten_cons, List.map_map, Nat.add_zero,
    sampleValue_eq]
  refine congrArg (_ ++ List.flatten ·) (List.map_congr_left fun j _ => ?_)
  show frameOf p (squareWave p play (idx + (j + 1))) = frameOf p (squareWave p play (idx + 1 + j))
  rw [Nat.add_assoc, Nat.add_comm 1]

/-- Everything the frames do: their bytes, one after the other, and the sample index (R322). -/
theorem putFrames_eq (p : Params) (play : Bool) (k : Nat) (a : Audio) :
    Audio.putFrames p play k a =
      { (waveFrames p play a.runningSampleIndex k).foldl (Audio.putByte p) a with
        runningSampleIndex := a.runningSampleIndex + k } := by
  induction k generalizing a with
  | zero => rfl
  | succ k ih =>
    have hi : (Audio.putFrame p play a).runningSampleIndex = a.runningSampleIndex + 1 :=
      congrArg (· + 1) (putBytes_rest p (frameOf p (sampleValue p play a.runningSampleIndex)) a).2.2.1
    rw [Audio.putFrames, ih, hi, waveFrames_succ, List.foldl_append]
    unfold Audio.putFrame
    rw [putBytes_index, Nat.add_assoc, Nat.add_comm 1]

/-- data after bytes written from write_cursor on, wrapping: each byte that no later one overwrites where it went, and as
before elsewhere. -/
theorem byteAt_putBytes (p : Params) (bs : List Byte) (a : Audio) (hw : a.writeCursor < p.cap) (j : Nat) :
    (∀ k, k < bs.length → bs.length ≤ k + p.cap → j = (a.writeCursor + k) % p.cap →
        (bs.foldl (Audio.putByte p) a).byteAt j = bs.getD k 0)
      ∧ ((∀ k, k < bs.length → j ≠ (a.writeCursor + k) % p.cap) →
        (bs.foldl (Audio.putByte p) a).byteAt j = a.byteAt j) := by
  induction bs generalizing a with
  | nil => simp
  | cons b bs ih =>
    have hc : 0 < p.cap := by omega
    have step := ih (Audio.putByte p a b) (Nat.mod_lt _ hc)
    have next : ∀ k, ((Audio.putByte p a b).writeCursor + k) % p.cap = (a.writeCursor + (k + 1)) % p.cap := by
      intro k
      show ((a.writeCursor + 1) % p.cap + k) % p.cap = _
      rw [Nat.mod_add_mod, Nat.add_assoc, Nat.add_comm 1]
    have here : (a.writeCursor + 0) % p.cap = a.writeCursor := Nat.mod_eq_of_lt hw
    simp only [next] at step
    constructor
    · intro k hk hl hj
      simp only [List.length_cons] at hk hl
      cases k with
      | zero =>
        rw [here] at hj
        rw [List.foldl_cons, step.2, byteAt_putByte, if_pos hj]
        · rfl
        · intro k hk' hj'
          have := Nat.ModEq.add_left_cancel' a.writeCursor (show a.writeCursor + 0 ≡ a.writeCursor + (k + 1) [MOD p.cap] from
            here.trans (hj ▸ hj'))
          rw [Nat.ModEq, Nat.mod_eq_of_lt hc, Nat.mod_eq_of_lt (show k + 1 < p.cap by omega)] at this
          omega
      | succ k =>
        rw [List.foldl_cons, step.1 k (by omega) (by omega) hj]
        rfl
    · intro h
      rw [List.foldl_cons, step.2 fun k hk => h (k + 1) (by simpa using hk), byteAt_putByte, if_neg]
      exact here ▸ h 0 (by simp)

/-- The two regions of a PULL's copy are `req` bytes from play_cursor on, wrapping (R326). -/
theorem copyOut_eq (p : Params) (a : Audio) (req : Nat) (hp : a.playCursor < p.cap) (hr : req ≤ p.cap) :
    a.copyOut p req = (List.range req).map (fun j => a.byteAt ((a.playCursor + j) % p.cap)) := by
  refine List.ext_getElem (by simp [Audio.copyOut]) fun j h1 h2 => ?_
  have hj : j < req := by simpa using h2
  simp only [Audio.copyOut, List.getElem_map, List.getElem_range]
  by_cases h : j < min req (p.cap - a.playCursor)
  · rw [List.getElem_append_left (by simpa using h), List.getElem_map, List.getElem_range,
      Nat.mod_eq_of_lt (by omega)]
  · rw [List.getElem_append_right (by simp; omega), List.getElem_map, List.getElem_range, List.length_map,
      List.length_range, Nat.mod_eq_sub_mod (by omega), Nat.mod_eq_of_lt (by omega)]
    congr 1
    omega

end Sys2Proof.Machine
end

