-- ==== Sys2Proof/Laws/Step.lean ====
section
/-! SUPPORT. What a step, a tick, a pull and a boot can do, each said once (spec/30_encoding.md R101,
spec/60_exceptions.md R310, R326, R335, spec/70_reset_and_hazards.md R371). -/

namespace Sys2Proof.Machine

/-! ### The interpreter's STEP and the interleaving -/

/-- Everything a STEP can do when it has a next state: it was enabled, and it recorded a fetch fault, ran the decoded
instruction after the prelude, or advanced past an unrecognized word. -/
theorem interpret_cases {s t : State} (h : interpret s = .next t) :
    s.booted = true ∧ s.finished = false ∧ s.fault = none
      ∧ ((s.fetchFaults = true ∧ t = s.recordFault (.fetchOutOfRange s.pc))
        ∨ (s.fetchFaults = false ∧ ∃ i, decode s.fetchWord = .ok i ∧ exec i s.advance = .next t)
        ∨ (s.fetchFaults = false ∧ (∃ e, decode s.fetchWord = .error e) ∧ t = s.advance)) := by
  cases hb : s.booted <;> cases hf : s.finished <;> cases hx : s.fault <;> cases hr : s.fetchFaults <;>
    simp only [interpret, hb, hf, hx, hr, Bool.not_true, Bool.not_false, if_true, if_false, Bool.false_eq_true,
      reduceCtorEq] at h
  · refine ⟨rfl, rfl, rfl, .inr ?_⟩
    unfold runWord at h
    cases hd : decode s.fetchWord with
    | ok i => exact .inl ⟨rfl, i, rfl, by rw [hd] at h; exact h⟩
    | error e =>
      rw [hd] at h
      exact .inr ⟨rfl, ⟨e, rfl⟩, (Host.Outcome.next.inj h).symm⟩
  · exact ⟨rfl, rfl, rfl, .inl ⟨rfl, (Host.Outcome.next.inj h).symm⟩⟩

/-- An enabled STEP on a word that decodes runs its instruction (R101). -/
theorem interpret_decoded {s : State} {i : Instr} (hb : s.booted = true) (hf : s.finished = false) (hx : s.fault = none)
    (hr : s.fetchFaults = false) (hd : decode s.fetchWord = .ok i) : interpret s = exec i s.advance := by
  simp [interpret, runWord, hb, hf, hx, hr, hd]

/-- With nothing scheduled a step is the interpreter's. -/
theorem step_unscheduled {s : State} (h : s.schedule = []) : step s = interpret s := by
  simp [step, nextTransition, h]

/-- Otherwise it is the operation scheduled first. -/
theorem step_scheduled {s : State} {op : HostOp} {rest : List HostOp} (h : s.schedule = op :: rest) :
    step s = perform op { s with schedule := rest } := by
  simp [step, nextTransition, h]

/-- A transition that is a STEP, unscheduled or scheduled first, is the interpreter's on the rest of the schedule. -/
theorem step_is_interpret {s : State} (h : s.schedule = [] ∨ s.schedule.head? = some .step) :
    step s = interpret { s with schedule := s.schedule.tail } := by
  cases hl : s.schedule with
  | nil =>
    rw [step_unscheduled hl]
    cases s
    cases hl
    rfl
  | cons op rest =>
    rw [hl] at h
    obtain rfl : op = .step := by simpa using h
    exact step_scheduled hl

/-- A fetch at 0xFFE or below is in range (R101). -/
theorem fetchFaults_eq (s : State) : s.fetchFaults = decide (s.pc.toNat > 0xFFE) := rfl

/-- What every kind of transition keeps, every step keeps. -/
theorem step_keeps {Inv : State → Prop} (hschedule : ∀ s l, Inv s → Inv { s with schedule := l })
    (hstep : ∀ s t, Inv s → interpret s = .next t → Inv t)
    (htick : ∀ s k t, Inv s → execTick k s = .next t → Inv t)
    (hpull : ∀ s k t, Inv s → execPull k s = .next t → Inv t)
    (hkey : ∀ s k, Inv s → Inv (s.setKey k))
    (hquirks : ∀ s a b, Inv s → Inv { s with shiftQuirk := a, indexQuirk := b })
    (hboot : ∀ s image, Inv s → Inv (s.boot image))
    (hfinish : ∀ s, Inv s → Inv { s with finished := true })
    {s t : State} (hs : Inv s) (h : step s = .next t) : Inv t := by
  cases hl : s.schedule with
  | nil => exact hstep s t hs (step_unscheduled hl ▸ h)
  | cons op rest =>
    rw [step_scheduled hl] at h
    have h1 := hschedule s rest hs
    cases op with
    | step => exact hstep _ _ h1 h
    | tick k => exact htick _ _ _ h1 h
    | pull k => exact hpull _ _ _ h1 h
    | setKey k => exact Host.Outcome.next.inj h ▸ hkey _ k h1
    | setQuirks a b => exact Host.Outcome.next.inj h ▸ hquirks _ a b h1
    | boot image => exact Host.Outcome.next.inj h ▸ hboot _ image h1
    | observe => exact Host.Outcome.next.inj h ▸ h1
    | finish => exact Host.Outcome.next.inj h ▸ hfinish _ h1

/-! ### The timer driver and the audio consumer -/

/-- Everything a TICK can do: both timers down, and a Generate when the audio device is there. -/
theorem execTick_cases {k : Nat} {s t : State} (h : execTick k s = .next t) :
    s.booted = true ∧ t = { s with dt := timerDown s.dt, st := timerDown s.st, audio := t.audio }
      ∧ ((s.cfg.audioAvailable = false ∧ t.audio = s.audio)
        ∨ (s.cfg.audioAvailable = true ∧ s.cfg.audioWellFormed = true
          ∧ t.audio = s.audio.generate s.cfg (tickPlays s.cfg s.st) k)) := by
  cases hb : s.booted <;> cases ha : s.cfg.audioAvailable <;> cases hw : s.cfg.audioWellFormed <;>
    simp only [execTick, hb, ha, hw, Bool.not_true, Bool.not_false, if_true, if_false, Bool.false_eq_true,
      reduceCtorEq] at h <;>
    cases h
  · exact ⟨rfl, rfl, .inl ⟨rfl, rfl⟩⟩
  · exact ⟨rfl, rfl, .inl ⟨rfl, rfl⟩⟩
  · exact ⟨rfl, rfl, .inr ⟨rfl, rfl, rfl⟩⟩

/-- Everything a PULL can do: the consumer's cursor, the pending length and the sticky bit. -/
theorem execPull_cases {req : Nat} {s t : State} (h : execPull req s = .next t) :
    s.cfg.audioAvailable = true ∧ s.cfg.audioWellFormed = true ∧ req ≤ s.cfg.cap
      ∧ t = { s with
          audio := s.audio.pulled s.cfg req
          underrunDraws := s.underrunDraws + (req - s.audio.length) } := by
  by_cases hr : req > s.cfg.cap <;> cases ha : s.cfg.audioAvailable <;> cases hw : s.cfg.audioWellFormed <;>
    simp only [execPull, ha, hw, hr, Bool.not_true, Bool.not_false, if_true, if_false, Bool.false_eq_true,
      reduceCtorEq] at h
  exact ⟨rfl, rfl, Nat.le_of_not_lt hr, (Host.Outcome.next.inj h).symm⟩

/-- A timer falls by one and stops at 0 (R310). -/
theorem timerDown_toNat (b : Byte) : (timerDown b).toNat = b.toNat - 1 := by
  unfold timerDown
  split
  · rw [BitVec.toNat_sub]
    have := b.isLt
    have h1 : (1 : Byte).toNat = 1 := rfl
    rw [h1]
    omega
  · have h0 : (0 : Byte).toNat = 0 := rfl
    rw [h0]
    omega

/-! ### Memory after a boot (R371) -/

/-- The cells of consecutive addresses, looked up. -/
theorem cellLookup_cellsFrom (a : Nat) (bs : List Byte) (c : Nat) :
    cellLookup (cellsFrom a bs) c = if a ≤ c then bs[c - a]? else none := by
  induction bs generalizing a with
  | nil => simp [cellsFrom, cellLookup]
  | cons b bs ih =>
    rw [cellsFrom, cellLookup, ih]
    by_cases h : a = c
    · subst h
      simp
    · by_cases hlt : a ≤ c
      · obtain ⟨k, hk⟩ : ∃ k, c - a = k + 1 := ⟨c - a - 1, by omega⟩
        have hk' : c - (a + 1) = k := by omega
        have h1 : a + 1 ≤ c := by omega
        simp [h, hlt, h1, hk, hk']
      · have h1 : ¬ a + 1 ≤ c := by omega
        simp [h, hlt, h1]

/-- What a boot leaves listed: the glyph cells as they were, then the image at 0x200, cut at its capacity. -/
theorem cellLookup_bootMemory (m : Memory) (image : List Byte) (c : Nat) :
    cellLookup (bootMemory m image) c =
      if c < 80 then cellLookup m c
      else if 0x200 ≤ c then (image.take Config.progMax)[c - 0x200]? else none := by
  have key : ∀ r : List Host.Cell, (c < 80 → ∀ q ∈ r, q.1 ≠ c) →
      cellLookup (m.filter (fun q => inFont q.1) ++ r) c
        = if c < 80 then cellLookup m c else cellLookup r c := by
    intro r hr
    induction m with
    | nil =>
      by_cases hc : c < 80
      · simpa [hc, cellLookup] using cellLookup_eq_none (hr hc)
      · simp [hc]
    | cons p m ih =>
      obtain ⟨k, d⟩ := p
      by_cases hk : k < 80
      · rw [List.filter_cons, if_pos (by simpa using hk), List.cons_append, cellLookup, ih, cellLookup]
        by_cases hc : c < 80
        · simp [hc]
        · have : k ≠ c := fun e => hc (e ▸ hk)
          simp [hc, this]
      · rw [List.filter_cons, if_neg (by simpa using hk), ih, cellLookup]
        by_cases hc : c < 80
        · have : k ≠ c := fun e => hk (e ▸ hc)
          simp [this]
        · simp [hc]
  rw [bootMemory, key, cellLookup_cellsFrom]
  · rfl
  · intro hc q hq
    have := (mem_cellsFrom hq).1
    simp only [Config.progBase] at this
    omega

end Sys2Proof.Machine
end

