-- ==== Sys2Proof/Tests/Slice0.lean ====
section
/-! SUPPORT. Tests: words written out from the spec's encodings, checks that refuse, single steps with the expected values
of spec/95_test_vectors.md, and a witness for the hypotheses of each statement. -/

namespace Sys2Proof.Tests

open Sys2Proof.Machine

/-! ### Helpers -/

/-- The configuration of the vectors A1 to A6 (95_test_vectors.md 2.8), with the default parameters elsewhere. -/
def demoParams : Params where
  font := Config.defaultFont
  noKeyCode := none
  fx0aConsumesKey := true
  flagOrder := .flagLast
  stackGuard := .unguarded
  toneSamplePoint := .beforeDecrement
  audioAvailable := true
  cap := 8
  sampleRate := 8
  toneHz := 2
  channels := 1
  sampleBytes := 1
  toneVolume := 0x7F
  silenceValue := 0
  encodeTable := [(0x7F, [0x7F]), (0, [0])]
  pixels := ⟨0, 1, by decide⟩

/-- A booted machine of that configuration whose prelude has fetched the instruction at 0x200. -/
def demo : State := { (State.constructed demoParams).boot [] with pc := 0x202 }

/-- The same machine before the fetch. -/
def ready : State := { demo with pc := 0x200 }

/-- Registers set. -/
def withV (s : State) (l : List (Nibble × Byte)) : State := l.foldl (fun s p => s.setV p.1 p.2) s

/-- Memory bytes set from an address on. -/
def withMem (s : State) (a : Nat) (bs : List Byte) : State := writeBytes a bs s

/-- Something of the next state, if there is one. -/
def seen {α : Type} (r : Result) (f : State → α) : Option α :=
  match r with
  | .next t => some (f t)
  | .fault _ => none
  | .refused _ => none

/-- The stop of an outcome without a next state. -/
def stopped (r : Result) : Option (Fault ⊕ Refusal) :=
  match r with
  | .next _ => none
  | .fault f => some (.inl f)
  | .refused q => some (.inr q)

/-! ### Parameters that the checks of WellFormed refuse (R251, R320; vector A10) -/

theorem test_wellFormed_accepts : demoParams.audioWellFormed = true := by decide
theorem test_wellFormed_cap : { demoParams with cap := 0 }.audioWellFormed = false := by decide
theorem test_wellFormed_channels : { demoParams with channels := 0 }.audioWellFormed = false := by decide
theorem test_wellFormed_sampleBytes : { demoParams with sampleBytes := 0 }.audioWellFormed = false := by decide
theorem test_wellFormed_sampleRate : { demoParams with sampleRate := 0 }.audioWellFormed = false := by decide
theorem test_wellFormed_toneHz : { demoParams with toneHz := 0 }.audioWellFormed = false := by decide
theorem test_wellFormed_halfPeriod : { demoParams with sampleRate := 3 }.audioWellFormed = false := by decide
theorem test_wellFormed_pixels : PixelPair.make 7 7 = none ∧ (PixelPair.make 7 8).isSome = true := by decide
theorem test_construct_refuses : stopped (construct { demoParams with sampleRate := 3 }) = some (.inr .badAudioConfig) := by
  decide

/-! ### Each row's word, written bit by bit from the encoding column of opcode_table.json, decodes to its instruction -/

theorem test_decode_cls : decode 0b0000000011100000 = .ok .cls := by decide
theorem test_decode_ret : decode 0b0000000011101110 = .ok .ret := by decide
theorem test_decode_jp : decode 0b0001001000110100 = .ok (.jp 0x234) := by decide
theorem test_decode_call : decode 0b0010101010111100 = .ok (.call 0xABC) := by decide
theorem test_decode_seImm : decode 0b0011001101000010 = .ok (.seImm 3 0x42) := by decide
theorem test_decode_sneImm : decode 0b0100001101000001 = .ok (.sneImm 3 0x41) := by decide
theorem test_decode_seReg : decode 0b0101000100100000 = .ok (.seReg 1 2) := by decide
theorem test_decode_ldImm : decode 0b0110101000111100 = .ok (.ldImm 0xA 0x3C) := by decide
theorem test_decode_addImm : decode 0b0111000111111111 = .ok (.addImm 1 0xFF) := by decide
theorem test_decode_ldReg : decode 0b1000000111100000 = .ok (.ldReg 1 0xE) := by decide
theorem test_decode_orReg : decode 0b1000000100100001 = .ok (.orReg 1 2) := by decide
theorem test_decode_andReg : decode 0b1000000100100010 = .ok (.andReg 1 2) := by decide
theorem test_decode_xorReg : decode 0b1000000100100011 = .ok (.xorReg 1 2) := by decide
theorem test_decode_addReg : decode 0b1000111100000100 = .ok (.addReg 0xF 0) := by decide
theorem test_decode_subReg : decode 0b1000000111110101 = .ok (.subReg 1 0xF) := by decide
theorem test_decode_shr : decode 0b1000000100100110 = .ok (.shr 1 2) := by decide
theorem test_decode_subn : decode 0b1000000100100111 = .ok (.subn 1 2) := by decide
theorem test_decode_shl : decode 0b1000000100101110 = .ok (.shl 1 2) := by decide
theorem test_decode_sneReg : decode 0b1001000100100000 = .ok (.sneReg 1 2) := by decide
theorem test_decode_ldI : decode 0b1010000100100011 = .ok (.ldI 0x123) := by decide
theorem test_decode_jpV0 : decode 0b1011111110000000 = .ok (.jpV0 0xF80) := by decide
theorem test_decode_rnd : decode 0b1100000000001111 = .ok (.rnd 0 0x0F) := by decide
theorem test_decode_drw : decode 0b1101000100100101 = .ok (.drw 1 2 5) := by decide
theorem test_decode_skp : decode 0b1110010010011110 = .ok (.skp 4) := by decide
theorem test_decode_sknp : decode 0b1110010010100001 = .ok (.sknp 4) := by decide
theorem test_decode_ldVDt : decode 0b1111001100000111 = .ok (.ldVDt 3) := by decide
theorem test_decode_ldVK : decode 0b1111001000001010 = .ok (.ldVK 2) := by decide
theorem test_decode_ldDt : decode 0b1111001100010101 = .ok (.ldDt 3) := by decide
theorem test_decode_ldSt : decode 0b1111001100011000 = .ok (.ldSt 3) := by decide
theorem test_decode_addI : decode 0b1111000000011110 = .ok (.addI 0) := by decide
theorem test_decode_ldF : decode 0b1111000000101001 = .ok (.ldF 0) := by decide
theorem test_decode_ldB : decode 0b1111010100110011 = .ok (.ldB 5) := by decide
theorem test_decode_ldMemV : decode 0b1111001001010101 = .ok (.ldMemV 2) := by decide
theorem test_decode_ldVMem : decode 0b1111001001100101 = .ok (.ldVMem 2) := by decide

/-- Vectors E6, E7, E8: unrecognized words, rejected by name. -/
theorem test_decode_unrecognized :
    ([0x0000, 0x0123, 0x01E0, 0x00E1, 0x00FF, 0x5121, 0x912F, 0x8128, 0x812F, 0xE19F, 0xF1FF, 0xF100] : List Word).all
      (fun w => decode w == .error (.unrecognized w)) = true := by decide

/-- The table's number of a word and the bytes of it in memory. -/
theorem test_decodeTableWord : decodeTableWord 16 0x2ABC = some (.call 0xABC) ∧ decodeTableWord 16 0x0123 = none := by
  decide
theorem test_decodeBytes_truncated : decodeBytes [0x12] = .error .truncated := by decide

/-! ### From reset: the word placed is the first instruction that runs -/

theorem test_reset_runs_ldImm :
    seen (step (State.reset.withFetchWord 16 0x6A3C)) (fun t => (t.getV 0xA, t.pc)) = some (0x3C, 0x202) := by decide
/-- Vector E6 (R96): the step of an unrecognized word only advances pc. -/
theorem test_unrecognized_noop : seen (step (ready.withFetchWord 16 0x0123)) (fun t => t.pc) = some 0x202 := by decide
/-- Vector E1: the fetch is big-endian. -/
theorem test_fetch_bigEndian :
    seen (step (withMem { ready with pc := 0x300 } 0x300 [0x12, 0x34])) (fun t => t.pc) = some 0x234 := by decide
/-- Vectors E3, E4, E5: the fetch at 0xFFE is legal; at 0xFFF and 0x1000 it faults and pc stays. -/
theorem test_fetch_last : (withMem { ready with pc := 0xFFE } 0xFFE [0x60, 0x01]).fetchFaults = false := by decide
theorem test_fetch_faults :
    seen (step { ready with pc := 0xFFF }) (fun t => (t.fault, t.pc)) = some (some (.fetchOutOfRange 0xFFF), 0xFFF)
    ∧ seen (step { ready with pc := 0x1000 }) (fun t => t.fault) = some (some (.fetchOutOfRange 0x1000)) := by decide
/-- Vector T8 and R302: no step before BOOT, none when faulted. -/
theorem test_not_booted : stopped (step { ready with booted := false }) = some (.inr .notBooted) := by decide
theorem test_faulted_stops :
    stopped (step { ready with fault := some (.stackOverflow 0x200) }) = some (.inl (.stackOverflow 0x200)) := by decide
/-- The codes of R301. -/
theorem test_fault_codes : [Fault.fetchOutOfRange 0, .memOutOfRange 0, .stackOverflow 0, .stackUnderflow 0].map faultCode
    = [1, 2, 3, 4] := by decide

/-! ### Control flow: vectors B1 to B9 -/

theorem test_call : seen (exec (.call 0xABC) demo) (fun t => (t.sp, t.getStack 1, t.pc)) = some (1, 0x202, 0xABC) := by
  decide
theorem test_call_overflow :
    seen (exec (.call 0x300) { demo with sp := 15, pc := 0x262 }) (fun t => (t.fault, t.pc, t.sp))
      = some (some (.stackOverflow 0x260), 0x260, 15) := by decide
theorem test_ret : seen (exec .ret ({ demo with pc := 0x204 }.push 0x202 (by decide))) (fun t => (t.pc, t.sp, t.getStack 1))
    = some (0x202, 0, 0x202) := by decide
theorem test_ret_underflow : seen (exec .ret { demo with pc := 0x252 }) (fun t => (t.fault, t.pc, t.sp))
    = some (some (.stackUnderflow 0x250), 0x250, 0) := by decide
theorem test_jp : seen (exec (.jp 0x200) demo) (fun t => t.pc) = some 0x200 := by decide
theorem test_jpV0 : seen (exec (.jpV0 0xF80) (withV demo [(0, 0xFF)])) (fun t => t.pc) = some 0x07F := by decide
theorem test_jpV0_wraps : seen (exec (.jpV0 0xFFF) (withV demo [(0, 0xFF)])) (fun t => t.pc) = some 0x0FE := by decide

/-! ### Skips: vectors K1 to K11 -/

theorem test_seImm : seen (exec (.seImm 3 0x42) (withV demo [(3, 0x42)])) (fun t => t.pc) = some 0x204
    ∧ seen (exec (.seImm 3 0x42) (withV demo [(3, 0x41)])) (fun t => t.pc) = some 0x202 := by decide
theorem test_sneImm : seen (exec (.sneImm 3 0x42) (withV demo [(3, 0x41)])) (fun t => t.pc) = some 0x204 := by decide
theorem test_seReg : seen (exec (.seReg 1 2) (withV demo [(1, 7), (2, 7)])) (fun t => t.pc) = some 0x204 := by decide
theorem test_sneReg : seen (exec (.sneReg 1 2) (withV demo [(1, 7), (2, 8)])) (fun t => t.pc) = some 0x204 := by decide
theorem test_skp : seen (exec (.skp 4) { withV demo [(4, 5)] with key := some 5 }) (fun t => t.pc) = some 0x204
    ∧ seen (exec (.skp 4) { withV demo [(4, 0x15)] with key := some 5 }) (fun t => t.pc) = some 0x202 := by decide
theorem test_sknp : seen (exec (.sknp 4) { withV demo [(4, 5)] with key := some 5 }) (fun t => t.pc) = some 0x202
    ∧ seen (exec (.sknp 4) (withV demo [(4, 0xFF)])) (fun t => t.pc) = some 0x204 := by decide
/-- Vector K10: a sentinel that equals a register value. -/
theorem test_noKeyCode :
    seen (exec (.skp 4) { withV demo [(4, 0xFF)] with cfg := { demoParams with noKeyCode := some 0xFF } }) (fun t => t.pc)
      = some 0x204 := by decide

/-! ### Arithmetic and logic: vectors L1 to L17 -/

theorem test_addImm : seen (exec (.addImm 1 1) (withV demo [(1, 0xFF), (0xF, 9)])) (fun t => (t.getV 1, t.getV 0xF))
    = some (0, 9) := by decide
theorem test_ldReg : seen (exec (.ldReg 1 2) (withV demo [(2, 0x55)])) (fun t => t.getV 1) = some 0x55 := by decide
theorem test_orReg : seen (exec (.orReg 1 2) (withV demo [(1, 0x12), (2, 0x34), (0xF, 9)]))
    (fun t => (t.getV 1, t.getV 0xF)) = some (0x36, 9) := by decide
theorem test_andReg : seen (exec (.andReg 1 2) (withV demo [(1, 0x12), (2, 0x34)])) (fun t => t.getV 1) = some 0x10 := by
  decide
theorem test_xorReg : seen (exec (.xorReg 1 2) (withV demo [(1, 0x12), (2, 0x34)])) (fun t => t.getV 1) = some 0x26 := by
  decide
theorem test_addReg : seen (exec (.addReg 1 2) (withV demo [(1, 0xFF), (2, 1)])) (fun t => (t.getV 1, t.getV 0xF))
    = some (0, 1) := by decide
/-- Vector L14: x = F under both flag orders. -/
theorem test_addReg_flagOrder :
    seen (exec (.addReg 0xF 0) (withV demo [(0xF, 0x80), (0, 0x80)])) (fun t => t.getV 0xF) = some 1
    ∧ seen (exec (.addReg 0xF 0) { withV demo [(0xF, 0x80), (0, 0x80)] with
        cfg := { demoParams with flagOrder := .resultLast } }) (fun t => t.getV 0xF) = some 0 := by decide
theorem test_subReg : seen (exec (.subReg 1 2) (withV demo [(1, 5), (2, 5)])) (fun t => (t.getV 1, t.getV 0xF))
    = some (0, 1) := by decide
/-- Vector L15: VF read as Vy before it is written. -/
theorem test_subReg_vf : seen (exec (.subReg 1 0xF) (withV demo [(1, 0x10), (0xF, 0x20)]))
    (fun t => (t.getV 1, t.getV 0xF)) = some (0xF0, 0) := by decide
theorem test_subn : seen (exec (.subn 1 2) (withV demo [(1, 0x0A), (2, 3)])) (fun t => (t.getV 1, t.getV 0xF))
    = some (0xF9, 0) := by decide
theorem test_shr : seen (exec (.shr 1 2) (withV demo [(1, 0x81)])) (fun t => (t.getV 1, t.getV 0xF)) = some (0x40, 1) := by
  decide
/-- Vectors L11, L13: the shift quirk takes the source from Vy. -/
theorem test_shr_quirk : seen (exec (.shr 1 2) { withV demo [(1, 0x81)] with shiftQuirk := true })
    (fun t => (t.getV 1, t.getV 0xF)) = some (0, 0) := by decide
theorem test_shl : seen (exec (.shl 1 2) (withV demo [(1, 0x81)])) (fun t => (t.getV 1, t.getV 0xF)) = some (2, 1) := by
  decide
theorem test_shl_quirk : seen (exec (.shl 1 2) { withV demo [(1, 1), (2, 0xFF)] with shiftQuirk := true })
    (fun t => (t.getV 1, t.getV 0xF)) = some (0xFE, 1) := by decide
/-- Vector L17: a draw masked away; the draw counter moves. -/
theorem test_rnd : seen (exec (.rnd 1 0) demo) (fun t => t.randomDraws) = some 1 := by decide

/-! ### Index and memory: vectors S5, M1 to M14 -/

theorem test_ldI : seen (exec (.ldI 0x123) demo) (fun t => t.i) = some 0x123 := by decide
theorem test_addI : seen (exec (.addI 0) { withV demo [(0, 0xFF)] with i := 0xFFE }) (fun t => (t.i, t.getV 0xF))
    = some (0x0FD, 1) := by decide
theorem test_addI_above : seen (exec (.addI 0) { withV demo [(0, 0x20)] with i := 0x1000 }) (fun t => (t.i, t.getV 0xF))
    = some (0x020, 1) := by decide
theorem test_ldF : seen (exec (.ldF 0) (withV demo [(0, 0xFF)])) (fun t => t.i) = some 0x4FB := by decide
theorem test_ldB : seen (exec (.ldB 5) { withV demo [(5, 0x9C)] with i := 0x300 })
    (fun t => [t.readByte 0x300, t.readByte 0x301, t.readByte 0x302]) = some [1, 5, 6] := by decide
theorem test_ldB_faults : seen (exec (.ldB 0) { demo with i := 0xFFE }) (fun t => (t.fault, t.mem, t.pc))
    = some (some (.memOutOfRange 0x1000), [], 0x200) := by decide
theorem test_ldMemV : seen (exec (.ldMemV 2) { withV demo [(0, 1), (1, 2), (2, 3)] with i := 0x300, indexQuirk := true })
    (fun t => (t.mem, t.i)) = some ([(0x300, 1), (0x301, 2), (0x302, 3)], 0x303) := by decide
theorem test_ldMemV_faults : seen (exec (.ldMemV 1) { demo with i := 0xFFF }) (fun t => (t.fault, t.mem))
    = some (some (.memOutOfRange 0x1000), []) := by decide
theorem test_ldVMem : seen (exec (.ldVMem 2) { withMem (withV demo [(3, 9)]) 0x300 [2, 5, 4] with i := 0x300 })
    (fun t => (t.getV 0, t.getV 1, t.getV 2, t.getV 3, t.i)) = some (2, 5, 4, 9, 0x300) := by decide
theorem test_ldVMem_faults : seen (exec (.ldVMem 0) { demo with i := 0x1000 }) (fun t => t.fault)
    = some (some (.memOutOfRange 0x1000)) := by decide
/-- R69: a glyph byte can be overwritten, and written back it is listed no longer. -/
theorem test_glyph_store : (demo.writeByte 0x10 7).mem = [(0x10, 7)] ∧ ((demo.writeByte 0x10 7).writeByte 0x10 0x10).mem = []
    ∧ (demo.writeByte 0x10 7).readByte 0x10 = 7 := by decide

/-! ### Timers and keys: vectors T1 to T11 -/

theorem test_ldVDt : seen (exec (.ldVDt 3) { demo with dt := 0x3C }) (fun t => t.getV 3) = some 0x3C := by decide
theorem test_ldDt : seen (exec (.ldDt 3) (withV demo [(3, 0x3C)])) (fun t => t.dt) = some 0x3C := by decide
theorem test_ldSt : seen (exec (.ldSt 3) (withV demo [(3, 0x3C)])) (fun t => t.st) = some 0x3C := by decide
theorem test_ldVK : seen (exec (.ldVK 5) { demo with key := some 9 }) (fun t => (t.getV 5, t.key, t.pc))
    = some (9, none, 0x202) := by decide
theorem test_ldVK_waits : seen (exec (.ldVK 0xF) demo) (fun t => (t.pc, t.getV 0xF)) = some (0x200, 0) := by decide

/-! ### Display: vectors P1 to P8 -/

theorem test_drw_wraps : seen (exec (.drw 0 1 2) { withMem (withV demo [(0, 0), (1, 0x1F)]) 0x300 [0x80, 0x80] with i := 0x300 })
    (fun t => (Display.get t.display 31 0, Display.get t.display 0 0, t.getV 0xF)) = some (.on, .on, 0) := by decide
theorem test_drw_collides :
    seen (exec (.drw 0 1 1) { withMem demo 0x300 [0xC0] with i := 0x300, display := Display.put Display.clear 0 0 .on })
      (fun t => (Display.get t.display 0 0, Display.get t.display 0 1, t.getV 0xF)) = some (.off, .on, 1) := by decide
theorem test_drw_empty : seen (exec (.drw 0 0 0) { withV demo [(0xF, 1)] with i := 0x1000 }) (fun t => (t.getV 0xF, t.fault))
    = some (0, none) := by decide
theorem test_drw_faults : seen (exec (.drw 0 0 2) { withV demo [(0xF, 1)] with i := 0xFFF }) (fun t => (t.getV 0xF, t.fault))
    = some (1, some (.memOutOfRange 0x1000)) := by decide
theorem test_cls : seen (exec .cls { demo with display := Display.put Display.clear 3 4 .on })
    (fun t => Display.get t.display 3 4) = some .off := by decide

/-! ### Timer driver, audio, host: vectors T3 to T7, A1 to A8, S7 -/

theorem test_tick : seen (perform (.tick 0) { demo with dt := 1 }) (fun t => (t.dt, t.st, t.audio.length)) = some (0, 0, 0) := by
  decide
theorem test_tick_plays : tickPlays demoParams 1 = true
    ∧ tickPlays { demoParams with toneSamplePoint := .afterDecrement } 1 = false := by decide
theorem test_sampleValue : (List.range 10).map (sampleValue demoParams true)
    = [0, 0, 0x7F, 0x7F, 0, 0, 0x7F, 0x7F, 0, 0] := by decide
/-- Vectors A1 and A2. -/
theorem test_generate_pull :
    let a := (Audio.constructed.generate demoParams true 4).generate demoParams false 4
    a.copyOut demoParams 6 = [0, 0, 0x7F, 0x7F, 0, 0]
      ∧ (a.playCursor, a.writeCursor, a.length, a.runningSampleIndex) = (0, 0, 8, 8) := by decide
/-- Vector A9: stereo, two bytes a sample, little-endian. -/
theorem test_generate_stereo :
    let p := { demoParams with channels := 2, sampleBytes := 2, encodeTable := [(0x7F, [0x7F, 0])] }
    let a := { Audio.constructed with runningSampleIndex := 2 }.generate p true 1
    (a.data.map Prod.snd, a.writeCursor, a.length, a.runningSampleIndex) = ([0x7F, 0, 0x7F, 0], 4, 4, 3) := by decide
/-- A sample outside the table is encoded as free bytes. -/
theorem test_encodeSample_free : encodeSample { demoParams with sampleBytes := 2 } 5
    = [Config.encodeSampleByte 5 0, Config.encodeSampleByte 5 1] := rfl
/-- Vectors A4 to A6: two regions, the underrun and the overrun. -/
theorem test_pull_wraps :
    ({ Audio.constructed with playCursor := 6, writeCursor := 3, length := 5, data := [(0, 1), (1, 2), (2, 3), (6, 7), (7, 8)] } :
      Audio).copyOut demoParams 5 = [7, 8, 1, 2, 3] := by decide
theorem test_pull_underrun :
    seen (perform (.pull 2) { demo with audio := { Audio.constructed with playCursor := 3, writeCursor := 3 } })
      (fun t => (t.audio.playCursor, t.audio.length, t.audio.underrun, t.underrunDraws)) = some (5, 0, true, 2) := by decide
theorem test_generate_overrun :
    let a := { Audio.constructed with length := 6 }.generate demoParams false 3
    (a.overrun, a.length) = (true, 8) := by decide
theorem test_pull_tooLarge : stopped (perform (.pull 9) demo) = some (.inr (.pullTooLarge 9)) := by decide
/-- Vector S7: BOOT of a faulted machine resets pc and V and leaves the fault. -/
theorem test_boot :
    seen (perform (.boot [0x12, 0x00]) { withV demo [(3, 9)] with fault := some (.stackOverflow 0x200), pc := 0x260 })
      (fun t => (t.pc, t.getV 3, t.readByte 0x200, t.fault)) = some (0x200, 0, 0x12, some (.stackOverflow 0x200)) := by decide
theorem test_setKey : seen (perform (.setKey (some 7)) demo) (fun t => t.key) = some (some 7) := by decide
theorem test_setQuirks : seen (perform (.setQuirks true false) demo) (fun t => (t.shiftQuirk, t.indexQuirk))
    = some (true, false) := by decide
theorem test_observe : ({ demo with display := Display.put Display.clear 1 2 .on }).observe.display[1 * 64 + 2]? = some 1 := by
  decide
/-- OBSERVE's list (R39), each element with a value of its own. -/
theorem test_observe_list :
    let o := { withV demo [(0xF, 1)] with i := 2, pc := 3, sp := 4, dt := 5, st := 6 }.observe
    (o.v[15], o.i, o.pc, o.sp, o.dt, o.st, o.stack[0]) = (1, 2, 3, 4, 5, 6, 0) := by decide
theorem test_schedule : seen (step { ready with schedule := [.setKey (some 3), .finish] }) (fun t => (t.key, t.schedule))
    = some (some 3, [.finish]) := by decide
theorem test_finish : stopped (step { ready with finished := true }) = some (.inr .finished) := by decide

/-! ### Witnesses: for each statement with hypotheses, a state and operands that meet them together, one for each clause -/

open Sys2Proof.Claims

/-- A machine whose next word is `w`, at address `a`. -/
def at_ (a : Word) (w : Word) : State := withMem { ready with pc := a } a.toNat [highByte w, lowByte w]

theorem witness_DecodedWordsAreTheirEncodings : decode 0xD12F = .ok (.drw 1 2 0xF) := by decide
theorem witness_OpcodeRowsAreDisjoint :
    Instr.cls ∈ rows ∧ Instr.ret ∈ rows ∧ matchesRow 0x00E0 .cls = true ∧ matchesRow 0x00E0 .ret = false := by decide
/-- Each clause of the list of R96, at words where it begins or ends. -/
theorem witness_UnrecognizedWordsAreNoOps_list :
    ([0x0000, 0x00DF, 0x00E1, 0x00EF, 0x0FFF, 0x5001, 0x5FFF, 0x8008, 0x800D, 0x8FFF, 0x9001, 0xE09D, 0xE0A2, 0xF006,
      0xF066] : List Word).all (fun w => decide (unrecognizedByList w)) = true
    ∧ ([0x00E0, 0x00EE, 0x1000, 0x5FF0, 0x8007, 0x800E, 0x9FF0, 0xE09E, 0xE0A1, 0xF007, 0xF065] : List Word).all
      (fun w => decide (¬ unrecognizedByList w)) = true := by decide
/-- A machine whose STEP is taken from a schedule with a TICK after it. -/
def scheduled (s : State) : State := { s with schedule := [.step, .tick 1] }
/-- Unscheduled and scheduled, at the last address a fetch may have. -/
theorem witness_UnrecognizedWordsAreNoOps_step :
    StepEnabled (scheduled (at_ 0xFFE 0x0123)) ∧ (scheduled (at_ 0xFFE 0x0123)).pc.toNat ≤ 0xFFE
    ∧ unrecognizedByList (nextWord (scheduled (at_ 0xFFE 0x0123))) ∧ IsStep (scheduled (at_ 0xFFE 0x0123))
    ∧ StepEnabled (at_ 0xFFE 0x0123) ∧ unrecognizedByList (nextWord (at_ 0xFFE 0x0123)) ∧ IsStep (at_ 0xFFE 0x0123) := by
  decide
theorem witness_StepRunsTheDecodedInstruction :
    StepEnabled (scheduled (at_ 0xFFE 0x6A3C)) ∧ (scheduled (at_ 0xFFE 0x6A3C)).pc.toNat ≤ 0xFFE
    ∧ decode (nextWord (scheduled (at_ 0xFFE 0x6A3C))) = .ok (.ldImm 0xA 0x3C) ∧ IsStep (scheduled (at_ 0xFFE 0x6A3C))
    ∧ Ready (at_ 0xFFE 0x6A3C) ∧ IsStep (at_ 0xFFE 0x6A3C) := by decide
/-- A STEP from a schedule runs the instruction and leaves the rest of the schedule (R72, R335). -/
theorem test_scheduled_step :
    seen (step (scheduled (at_ 0x200 0x6A3C))) (fun t => (t.getV 0xA, t.pc, t.schedule))
      = some (0x3C, 0x202, [.tick 1]) := by decide
theorem test_scheduled_step_faults :
    seen (step (scheduled { ready with pc := 0xFFF })) (fun t => (t.fault, t.pc, t.schedule))
      = some (some (.fetchOutOfRange 0xFFF), 0xFFF, [.tick 1]) := by decide
theorem witness_FetchBeyondMemoryFaults :
    StepEnabled (scheduled { ready with pc := 0xFFF }) ∧ (scheduled { ready with pc := 0xFFF }).pc.toNat > 0xFFE
    ∧ IsStep (scheduled { ready with pc := 0xFFF }) ∧ StepEnabled { ready with pc := 0xFFF }
    ∧ IsStep { ready with pc := 0xFFF } := by decide
/-- The three clauses of StepNeedsAnEnabledInterpreter. -/
theorem witness_StepNeedsAnEnabledInterpreter :
    (State.constructed demoParams).booted = false ∧ IsStep (State.constructed demoParams)
    ∧ IsStep (scheduled (State.constructed demoParams))
    ∧ { ready with finished := true }.booted = true ∧ IsStep (scheduled { ready with finished := true })
    ∧ { ready with fault := some (.stackUnderflow 0x200) }.finished = false
    ∧ IsStep (scheduled { ready with fault := some (.stackUnderflow 0x200) }) := by decide
theorem witness_ScheduledOperationComesNext :
    { ready with schedule := [.tick 0, .step] }.schedule = HostOp.tick 0 :: [.step] := by decide
/-- Both clauses of StoredByteIsFetched, at the ends of memory. -/
theorem witness_StoredByteIsFetched :
    MemoryCanonical (at_ 0xFFE 0x1234) ∧ (at_ 0 0x1234).pc.toNat = 0 ∧ (at_ 0xFFE 0x1234).pc.toNat + 1 = 4095 := by
  unfold MemoryCanonical
  decide
/-- Both clauses of CALL and of RET, and of the pair. -/
theorem witness_CallPushesItsReturnAddress : { demo with sp := 14 }.sp.val < 15 ∧ { demo with sp := 15 }.sp.val = 15 := by
  decide
theorem witness_ReturnPopsTheStack : 0 < { demo with sp := 1 }.sp.val ∧ demo.sp.val = 0 := by decide
theorem witness_ReturnUndoesCall : { demo with sp := 14 }.sp.val < 15 := by decide
/-- Both clauses of the skips. -/
theorem witness_ImmediateSkipsCompare : (withV demo [(0xF, 0xFF)]).getV 0xF = 0xFF ∧ demo.getV 0xF ≠ 0xFF := by decide
theorem witness_RegisterSkipsCompare :
    demo.getV 1 = demo.getV 2 ∧ (withV demo [(1, 0x80)]).getV 1 ≠ (withV demo [(1, 0x80)]).getV 2 := by decide
theorem witness_KeySkipsAreOpposite :
    KeyEquals { demo with key := some 0xF } 0xF
    ∧ KeyEquals { demo with cfg := { demoParams with noKeyCode := some 0xFF } } 0xFF
    ∧ ¬ KeyEquals { demo with key := some 0xF } 0x1F ∧ ¬ KeyEquals demo 0 :=
  ⟨.inl ⟨0xF, rfl, rfl⟩, .inr ⟨rfl, rfl⟩, fun h => by
    rcases h with ⟨k, hk, h⟩ | ⟨h, -⟩
    · cases hk
      exact absurd h (by decide)
    · exact absurd h (by decide), fun h => by
    rcases h with ⟨k, hk, -⟩ | ⟨-, h⟩
    · exact absurd hk (by simp [demo, State.boot, State.constructed])
    · exact absurd h (by decide)⟩
/-- The two clauses of ResultAndFlag, which AddSetsCarry, SubtractSetsNoBorrow and ShiftsByOneWithBitOut use, with x = F in
both flag orders. -/
theorem witness_ResultAndFlag :
    seen (exec (.addReg 0xE 0xF) (withV demo [(0xE, 0xFF), (0xF, 1)])) (fun t => (t.getV 0xE, t.getV 0xF)) = some (0, 1)
    ∧ seen (exec (.shl 0xF 0) (withV demo [(0xF, 0x81)])) (fun t => t.getV 0xF) = some 1
    ∧ seen (exec (.shl 0xF 0) { withV demo [(0xF, 0x81)] with cfg := { demoParams with flagOrder := .resultLast } })
      (fun t => t.getV 0xF) = some 2 := by decide
/-- Each of the six quantities of R320, and none. -/
theorem witness_BadAudio :
    BadAudio { demoParams with cap := 0 } ∧ BadAudio { demoParams with channels := 0 }
    ∧ BadAudio { demoParams with sampleBytes := 0 } ∧ BadAudio { demoParams with sampleRate := 0 }
    ∧ BadAudio { demoParams with toneHz := 0 } ∧ BadAudio { demoParams with sampleRate := 3 } ∧ ¬ BadAudio demoParams := by
  unfold BadAudio
  decide
theorem witness_RandomByteIsMasked : (0x7F : Byte).getLsbD 7 = false := by decide
/-- Both clauses of the instructions over memory, where their ranges meet. -/
theorem witness_DecimalDigitsAreStored :
    MemoryCanonical demo ∧ { demo with i := 0xFFD }.i.toNat + 2 ≤ 0xFFF ∧ { demo with i := 0xFFE }.i.toNat + 2 > 0xFFF := by
  unfold MemoryCanonical
  decide
theorem witness_RegistersAreStored :
    MemoryCanonical demo ∧ { demo with i := 0xFF0 }.i.toNat + (0xF : Nibble).toNat ≤ 0xFFF
    ∧ { demo with i := 0xFF1 }.i.toNat + (0xF : Nibble).toNat > 0xFFF := by
  unfold MemoryCanonical
  decide
theorem witness_RegistersAreLoaded :
    { demo with i := 0xFFF }.i.toNat + (0 : Nibble).toNat ≤ 0xFFF
    ∧ { demo with i := 0x1000 }.i.toNat + (0 : Nibble).toNat > 0xFFF ∧ (3 : Nibble).toNat ≤ (3 : Nibble).toNat := by decide
theorem witness_StoreThenLoadRestoresRegisters :
    MemoryCanonical { demo with i := 0xFF0 } ∧ { demo with i := 0xFF0 }.i.toNat + (0xF : Nibble).toNat ≤ 0xFFF := by
  unfold MemoryCanonical
  decide
theorem witness_KeyReadTakesOrRewinds : { demo with key := some 0xF }.key = some 0xF ∧ demo.key = none := by decide
theorem witness_KeyWaitSpinsUnchanged :
    Ready (at_ 0x210 0xF20A) ∧ decode (nextWord (at_ 0x210 0xF20A)) = .ok (.ldVK 2) ∧ (at_ 0x210 0xF20A).key = none := by
  decide
/-- A one-row sprite at the last byte of memory, drawn at the last column: its two set bits cover columns 63 and 0. -/
def sprite : State := { withMem (withV demo [(0, 0xFF), (1, 0x1F)]) 0xFFF [0xC0] with i := 0xFFF }
/-- The range clauses of DRW where they meet, n = 0 beyond memory included; a covered cell, an uncovered one, a cell that was
on, and a display without one. -/
theorem witness_DrawFlipsCoveredCells :
    (sprite.i.toNat + (1 : Nibble).toNat - 1 ≤ 0xFFF ∧ sprite.i.toNat + (2 : Nibble).toNat - 1 > 0xFFF)
    ∧ sprite.spriteCovers 0xFF 0x1F 1 31 0 ∧ ¬ sprite.spriteCovers 0xFF 0x1F 1 31 1
    ∧ Display.get (Display.put sprite.display 31 0 .on) 31 0 = .on ∧ Display.get sprite.display 31 0 = .off := by
  refine ⟨by decide, ⟨0, 1, by decide, by decide, by decide, by decide, by decide⟩, ?_, by decide, by decide⟩
  rintro ⟨r, c, hr, hc, hb, -, hcol⟩
  obtain rfl : r = 0 := by omega
  have : c = 2 := by
    have h1 : (1 : Nat) = (255 + c) % 64 := hcol
    omega
  subst this
  exact absurd hb (by decide)
theorem witness_DrawingTwiceRestores :
    ∃ t, exec (.drw 0 1 1) sprite = .next t ∧ t.getV 0 = sprite.getV 0 ∧ t.getV 1 = sprite.getV 1
      ∧ sprite.i.toNat + (1 : Nibble).toNat - 1 ≤ 0xFFF := ⟨_, rfl, by decide, by decide, by decide⟩
/-- A state of each kind: without a fault condition and with one. -/
theorem witness_OnlyTheListedConditionsFault :
    demo.fault = none ∧ faultOf (.jp 0x200) demo = none ∧ faultOf .ret demo = some (.stackUnderflow 0x200)
    ∧ faultOf (.call 0x300) { demo with sp := 15 } = some (.stackOverflow 0x200)
    ∧ faultOf (.drw 0 0 1) { demo with i := 0xFFFF } = some (.memOutOfRange 0xFFFF)
    ∧ faultOf (.drw 0 0 0) { demo with i := 0xFFFF } = none
    ∧ faultOf (.ldB 0) { demo with i := 0xFFE } = some (.memOutOfRange 0x1000) := by decide
theorem witness_InstructionsKeepTheirFrame :
    MemoryCanonical { demo with i := 0x300 } ∧ faultOf (.ldMemV 3) { demo with i := 0x300 } = none
    ∧ ∃ t, exec (.ldMemV 3) { demo with i := 0x300 } = .next t := by
  refine ⟨?_, by decide, _, rfl⟩
  unfold MemoryCanonical
  decide
theorem witness_InstructionsIgnoreTheAudio : ∃ t, exec (.ldSt 3) demo = .next t := ⟨_, rfl⟩
theorem witness_FaultsArePrecise :
    (at_ 0x250 0x00EE).fault = none
    ∧ (∃ t, step (at_ 0x250 0x00EE) = .next t ∧ t.fault = some (.stackUnderflow 0x250))
    ∧ (∃ t, perform .step (scheduled (at_ 0x250 0x00EE)) = .next t ∧ t.fault = some (.stackUnderflow 0x250))
    ∧ ∃ t, step (scheduled (at_ 0x250 0x00EE)) = .next t ∧ t.fault = some (.stackUnderflow 0x250) :=
  ⟨by decide, ⟨_, rfl, by decide⟩, ⟨_, rfl, by decide⟩, _, rfl, by decide⟩
theorem witness_FaultsAreSticky :
    let s := { ready with fault := some (.stackUnderflow 0x200), schedule := [.boot [0x12, 0x00], .step] }
    s.fault = some (.stackUnderflow 0x200) ∧ ∃ t, step s = .next t := ⟨rfl, _, rfl⟩
/-- A step that raises DT, and a scheduled tick while the word of LD DT lies at pc. -/
theorem witness_TimersFallUnlessLoaded :
    (∃ t, step (withV (at_ 0x200 0xF315) [(3, 9)]) = .next t ∧ t.dt = 9) ∧ IsStep (at_ 0x200 0xF315)
    ∧ (at_ 0x200 0xF315).fetchFaults = false ∧ decode (nextWord (at_ 0x200 0xF315)) = .ok (.ldDt 3)
    ∧ (∃ t, step { at_ 0x200 0xF315 with dt := 1, schedule := [.tick 0] } = .next t ∧ t.dt = 0) :=
  ⟨⟨_, rfl, by decide⟩, .inl rfl, by decide, by decide, _, rfl, by decide⟩
/-- Each clause of TickCountsDownAndGenerates: with and without the audio device, both sample points, before BOOT. -/
theorem witness_TickCountsDownAndGenerates :
    demo.booted = true ∧ demo.cfg.audioAvailable = true ∧ ¬ BadAudio demo.cfg
    ∧ demo.cfg.toneSamplePoint = .beforeDecrement
    ∧ { demo with cfg := { demoParams with toneSamplePoint := .afterDecrement } }.cfg.audioWellFormed = true
    ∧ { demo with cfg := { demoParams with audioAvailable := false } }.cfg.audioAvailable = false
    ∧ (State.constructed demoParams).booted = false := by
  unfold BadAudio
  decide
/-- A buffer that wraps: one byte is pending at offset 7, and three more are written from offset 0. -/
def wrapped : State :=
  { demo with audio := { Audio.constructed with playCursor := 7, writeCursor := 0, length := 1, data := [(7, 5)] } }
theorem witness_GenerateAppendsFrames :
    wrapped.cfg.audioWellFormed = true
    ∧ wrapped.audio.writeCursor = (wrapped.audio.playCursor + wrapped.audio.length) % wrapped.cfg.cap
    ∧ wrapped.audio.length + 7 * wrapped.cfg.frameBytes ≤ wrapped.cfg.cap := by decide
/-- An overrun, of exactly CAP bytes and of more than CAP: the first byte of the second batch is overwritten, the next is not;
and a batch of 3 bytes leaves offset 7 as it was. -/
theorem witness_OverrunIsRecorded :
    wrapped.cfg.audioWellFormed = true ∧ wrapped.audio.writeCursor < wrapped.cfg.cap
    ∧ wrapped.audio.length + 8 * wrapped.cfg.frameBytes > wrapped.cfg.cap
    ∧ (0 < 8 * wrapped.cfg.frameBytes ∧ 8 * wrapped.cfg.frameBytes ≤ 0 + wrapped.cfg.cap)
    ∧ (¬ 9 * wrapped.cfg.frameBytes ≤ 0 + wrapped.cfg.cap ∧ 9 * wrapped.cfg.frameBytes ≤ 1 + wrapped.cfg.cap)
    ∧ ∀ q, q < 3 * wrapped.cfg.frameBytes → 7 ≠ (wrapped.audio.writeCursor + q) % wrapped.cfg.cap := by decide
/-- A batch of 9 frames on a buffer of 8 bytes: the ninth byte lies where the first was. -/
theorem test_generate_overwrites :
    let a := Audio.constructed.generate demoParams true 9
    (a.byteAt 0, a.byteAt 2, a.writeCursor, a.length, a.overrun) = (0, 0x7F, 1, 8, true)
      ∧ ({ Audio.constructed with runningSampleIndex := 2 }.generate demoParams true 9).byteAt 0 = 0x7F := by decide
theorem witness_AudioInRange : AudioInRange wrapped ∧ CursorsAgree wrapped := by
  unfold AudioInRange CursorsAgree
  decide
theorem witness_PullTakesTheOldestBytes :
    wrapped.cfg.audioAvailable = true ∧ wrapped.cfg.audioWellFormed = true ∧ AudioInRange wrapped ∧ 1 ≤ wrapped.audio.length :=
  ⟨rfl, by decide, witness_AudioInRange.1, by decide⟩
theorem witness_UnderrunIsRecorded :
    wrapped.cfg.audioAvailable = true ∧ wrapped.cfg.audioWellFormed = true ∧ AudioInRange wrapped
    ∧ wrapped.audio.length < 2 ∧ 8 ≤ wrapped.cfg.cap := ⟨rfl, by decide, witness_AudioInRange.1, by decide, by decide⟩
theorem witness_PullIsRefused :
    { demo with cfg := { demoParams with audioAvailable := false } }.cfg.audioAvailable = false
    ∧ demo.cfg.audioAvailable = true ∧ ¬ BadAudio demo.cfg ∧ 9 > demo.cfg.cap
    ∧ { demo with cfg := { demoParams with toneHz := 0 } }.cfg.audioAvailable = true ∧ demo.booted = true
    ∧ BadAudio { demo with cfg := { demoParams with toneHz := 0 } }.cfg := by
  unfold BadAudio
  decide
theorem test_tick_badAudio :
    stopped (perform (.tick 0) { demo with cfg := { demoParams with toneHz := 0 } }) = some (.inr .badAudioConfig) := by decide
/-- The address clauses of BootResetsTheMachine leave out no address and meet nowhere, for an image of 2 bytes and for one
that fills memory. -/
theorem witness_BootResetsTheMachine :
    (1 < min [0x12, 0x00].length 3584 ∧ ¬ 2 < min [0x12, 0x00].length 3584 ∧ 0x200 + min [0x12, 0x00].length 3584 ≤ 0x202)
    ∧ 0x200 + min (List.replicate 4000 (0 : Byte)).length 3584 = 4096 := by
  refine ⟨by decide, ?_⟩
  rw [List.length_replicate]
  decide
/-- FINISH before and after BOOT, and operations that have a next state and that are refused. -/
theorem witness_FinishOnlyEndsTheSteps :
    demo.booted = true ∧ (State.constructed demoParams).booted = false
    ∧ (∃ u, perform (.tick 1) demo = .next u) ∧ HostOp.tick 1 ≠ .step
    ∧ perform (.tick 1) (State.constructed demoParams) = .refused .notBooted := by
  refine ⟨by decide, by decide, ⟨_, rfl⟩, by decide, rfl⟩
/-- A store at the last address it may reach, and an overrun-free tick: the invariants hold before steps that have a next
state. -/
theorem witness_MemoryStaysCanonical :
    MemoryCanonical { at_ 0x200 0xF055 with i := 0xFFF } ∧ ∃ t, step { at_ 0x200 0xF055 with i := 0xFFF } = .next t := by
  refine ⟨?_, _, rfl⟩
  unfold MemoryCanonical
  decide
theorem witness_RegistersStayInRange :
    RegistersInRange (at_ 0xFFE 0x3000) ∧ ∃ t, step (at_ 0xFFE 0x3000) = .next t ∧ t.pc = 0x1002 := by
  refine ⟨?_, _, rfl, by decide⟩
  unfold RegistersInRange
  decide
theorem witness_AudioStaysInRange :
    AudioInRange { wrapped with schedule := [.tick 7] } ∧ CursorsAgree { wrapped with schedule := [.tick 7] }
    ∧ ∃ t, step { wrapped with schedule := [.tick 7] } = .next t :=
  ⟨witness_AudioInRange.1, witness_AudioInRange.2, _, rfl⟩
theorem witness_CursorsStayInAgreement :
    AudioInRange { wrapped with schedule := [.pull 1] } ∧ CursorsAgree { wrapped with schedule := [.pull 1] }
    ∧ ∃ t, step { wrapped with schedule := [.pull 1] } = .next t :=
  ⟨witness_AudioInRange.1, witness_AudioInRange.2, _, rfl⟩
theorem witness_ParametersAndStickyBitsStay :
    let s := { wrapped with audio := { wrapped.audio with overrun := true, underrun := true }, schedule := [.boot []] }
    s.audio.overrun = true ∧ s.audio.underrun = true ∧ s.booted = true ∧ ∃ t, step s = .next t := ⟨rfl, rfl, rfl, _, rfl⟩
/-- The first and the last glyph byte of a constructed machine: the spec's tables of R63 begin with F0 and end with 80. -/
theorem witness_ResetMeetsTheInvariants :
    (State.constructed demoParams).readByte 0 = 0xF0 ∧ (State.constructed demoParams).readByte 79 = 0x80
    ∧ (State.constructed demoParams).readByte 20 = 0x90 := by decide

end Sys2Proof.Tests
end

section
/-! PROOFS. What the steps never take back: the parameters, the sticky audio bits, the sample index and booted. First what
no instruction writes at all (the fields that Writes of Safety.lean does not name), then what each other transition does
to it (spec/00_scope.md R8, spec/60_exceptions.md R323, R324, R327, spec/70_reset_and_hazards.md R371). -/

namespace Sys2Proof.Machine

/-! ### What no instruction writes -/

/-- The fields that no instruction writes, whether it completes or takes a fault (R38, R302). -/
structure Unwritten where
  cfg : Params
  shiftQuirk : Bool
  indexQuirk : Bool
  booted : Bool
  audio : Audio
  boots : Nat
  underrunDraws : Nat
  schedule : List HostOp
  finished : Bool

/-- The part of a state that no instruction writes. -/
def State.unwritten (s : State) : Unwritten where
  cfg := s.cfg
  shiftQuirk := s.shiftQuirk
  indexQuirk := s.indexQuirk
  booted := s.booted
  audio := s.audio
  boots := s.boots
  underrunDraws := s.underrunDraws
  schedule := s.schedule
  finished := s.finished

@[simp] theorem State.unwritten_writeBytes (a : Nat) (bs : List Byte) (s : State) :
    (writeBytes a bs s).unwritten = s.unwritten :=
  (congrArg State.unwritten (writeBytes_eq a bs s)).trans rfl

@[simp] theorem State.unwritten_loadRegs (base n : Nat) (s : State) : (loadRegs base n s).unwritten = s.unwritten :=
  (congrArg State.unwritten (loadRegs_eq base n s)).trans rfl

@[simp] theorem State.unwritten_writeRF (s : State) (x : Nibble) (r f : Byte) :
    (writeRF s x r f).unwritten = s.unwritten :=
  (congrArg State.unwritten (writeRF_eq s x r f)).trans rfl

@[simp] theorem State.unwritten_advanceI (s : State) (x : Nibble) : (s.advanceI x).unwritten = s.unwritten := by
  unfold State.advanceI
  split <;> rfl

@[simp] theorem State.unwritten_consumeKey (s : State) : s.consumeKey.unwritten = s.unwritten := by
  unfold State.consumeKey
  split <;> rfl

/-- Whenever a result is a next state, that state has the unwritten part of `s`. -/
def KeepsUnwritten (s : State) (r : Result) : Prop := ∀ t, r = .next t → t.unwritten = s.unwritten

theorem keepsUnwritten_next {s u : State} (h : u.unwritten = s.unwritten) : KeepsUnwritten s (.next u) :=
  fun _ ht => Host.Outcome.next.inj ht ▸ h

theorem keepsUnwritten_takeFault (s : State) (f : Fault) : KeepsUnwritten s (takeFault s f) :=
  keepsUnwritten_next rfl

theorem keepsUnwritten_skipIf (s : State) (holds : Bool) : KeepsUnwritten s (skipIf s holds) := by
  cases holds <;> exact keepsUnwritten_next rfl

theorem keepsUnwritten_withRange {s : State} {n : Nat} {e : Result} (h : KeepsUnwritten s e) :
    KeepsUnwritten s (withRange s n e) := by
  obtain ⟨-, hf⟩ | ⟨-, he⟩ := withRange_cases s n e
  · exact hf ▸ keepsUnwritten_takeFault s _
  · exact he.symm ▸ h

/-- No instruction writes the unwritten part (R38). -/
theorem exec_keepsUnwritten (i : Instr) (s : State) : KeepsUnwritten s (exec i s) := by
  cases i with
  | cls | jp | jpV0 | ldImm | addImm | ldReg | orReg | andReg | xorReg | rnd | ldI | addI | ldF | ldVDt | ldDt | ldSt =>
    exact keepsUnwritten_next rfl
  | seImm | sneImm | seReg | sneReg | skp | sknp => exact keepsUnwritten_skipIf s _
  | addReg x | subReg x | shr x | subn x | shl x => exact keepsUnwritten_next (s.unwritten_writeRF x _ _)
  | ret =>
    show KeepsUnwritten s (execRet s)
    unfold execRet
    split
    · exact keepsUnwritten_takeFault s _
    · exact keepsUnwritten_next rfl
  | call nnn =>
    show KeepsUnwritten s (execCall nnn s)
    unfold execCall
    split
    · exact keepsUnwritten_next rfl
    · exact keepsUnwritten_takeFault s _
  | ldVK x =>
    show KeepsUnwritten s (execLdVK x s)
    unfold execLdVK
    split
    · exact keepsUnwritten_next (State.unwritten_consumeKey _)
    · exact keepsUnwritten_next rfl
  | drw => exact keepsUnwritten_withRange (keepsUnwritten_next rfl)
  | ldB => exact keepsUnwritten_withRange (keepsUnwritten_next (State.unwritten_writeBytes _ _ s))
  | ldMemV => exact keepsUnwritten_withRange (keepsUnwritten_next (by simp))
  | ldVMem => exact keepsUnwritten_withRange (keepsUnwritten_next (by simp))

/-- A STEP of the interpreter, with or without a fault, leaves the unwritten part (R101, R302). -/
theorem interpret_unwritten {s t : State} (h : interpret s = .next t) : t.unwritten = s.unwritten := by
  obtain ⟨-, -, -, ⟨-, rfl⟩ | ⟨-, i, -, hexec⟩ | ⟨-, -, rfl⟩⟩ := interpret_cases h
  · rfl
  · exact exec_keepsUnwritten i s.advance t hexec
  · rfl

/-! ### What is never taken back -/

/-- From `a` to `a'` no sticky bit is cleared and the sample index does not fall (R323, R324, R327). -/
structure Audio.Persists (a a' : Audio) : Prop where
  overrun : a.overrun = true → a'.overrun = true
  underrun : a.underrun = true → a'.underrun = true
  index : a.runningSampleIndex ≤ a'.runningSampleIndex

/-- From `s` to `t` the parameters are kept, the audio state persists and a booted machine stays booted. -/
structure State.Persists (s t : State) : Prop where
  cfg : t.cfg = s.cfg
  audio : s.audio.Persists t.audio
  booted : s.booted = true → t.booted = true

theorem Audio.Persists.refl (a : Audio) : a.Persists a := ⟨id, id, Nat.le_refl _⟩

theorem Audio.Persists.trans {a b c : Audio} (h : a.Persists b) (h' : b.Persists c) : a.Persists c :=
  ⟨h'.overrun ∘ h.overrun, h'.underrun ∘ h.underrun, h.index.trans h'.index⟩

theorem State.Persists.trans {s t u : State} (h : s.Persists t) (h' : t.Persists u) : s.Persists u :=
  ⟨h'.cfg.trans h.cfg, h.audio.trans h'.audio, h'.booted ∘ h.booted⟩

theorem State.persists_of_eq {s t : State} (hc : t.cfg = s.cfg) (ha : t.audio = s.audio) (hb : t.booted = s.booted) :
    s.Persists t :=
  ⟨hc, ha ▸ .refl _, fun h => hb.trans h⟩

theorem State.Persists.refl (s : State) : s.Persists s := State.persists_of_eq rfl rfl rfl

/-- Generate only sets the overrun bit and moves the sample index by its frames (R322, R323). -/
theorem Audio.persists_generate (p : Params) (play : Bool) (k : Nat) (a : Audio) :
    a.Persists (a.generate p play k) where
  overrun h := by simp [Audio.generate, h]
  underrun h := by
    obtain ⟨-, -, -, hunder⟩ := putFrames_rest p play k a
    exact hunder.trans h
  index := putFrames_index p play k a ▸ Nat.le_add_right _ k

/-- A PULL only sets the underrun bit (R327). -/
theorem Audio.persists_pulled (p : Params) (a : Audio) (req : Nat) : a.Persists (a.pulled p req) where
  overrun := id
  underrun h := by simp [Audio.pulled, h]
  index := Nat.le_refl _

theorem interpret_persists {s t : State} (h : interpret s = .next t) : s.Persists t :=
  have hu := interpret_unwritten h
  State.persists_of_eq (congrArg Unwritten.cfg hu) (congrArg Unwritten.audio hu) (congrArg Unwritten.booted hu)

theorem execTick_persists {k : Nat} {s t : State} (h : execTick k s = .next t) : s.Persists t := by
  obtain ⟨-, ht, haudio⟩ := execTick_cases h
  refine ⟨(congrArg State.cfg ht).trans rfl, ?_, (congrArg State.booted ht).trans⟩
  obtain ⟨-, ha⟩ | ⟨-, -, ha⟩ := haudio
  · exact ha ▸ .refl _
  · exact ha ▸ Audio.persists_generate _ _ _ _

theorem execPull_persists {req : Nat} {s t : State} (h : execPull req s = .next t) : s.Persists t := by
  obtain ⟨-, -, -, rfl⟩ := execPull_cases h
  exact ⟨rfl, Audio.persists_pulled _ _ _, id⟩

/-- BOOT sets booted and leaves the parameters and the audio state (R371). -/
theorem State.persists_boot (s : State) (image : List Byte) : s.Persists (s.boot image) :=
  ⟨rfl, .refl _, fun _ => rfl⟩

/-- Every transition persists: what has persisted from `s` on, the next transition of each kind extends. -/
theorem step_persists {s t : State} (h : step s = .next t) : s.Persists t :=
  step_keeps (Inv := s.Persists)
    (hschedule := fun _ _ hs => hs.trans (State.persists_of_eq rfl rfl rfl))
    (hstep := fun _ _ hs h => hs.trans (interpret_persists h))
    (htick := fun _ _ _ hs h => hs.trans (execTick_persists h))
    (hpull := fun _ _ _ hs h => hs.trans (execPull_persists h))
    (hkey := fun _ _ hs => hs.trans (State.persists_of_eq rfl rfl rfl))
    (hquirks := fun _ _ _ hs => hs.trans (State.persists_of_eq rfl rfl rfl))
    (hboot := fun u image hs => hs.trans (u.persists_boot image))
    (hfinish := fun _ hs => hs.trans (State.persists_of_eq rfl rfl rfl))
    (.refl s) h

/-- Settles O58: every transition keeps the parameters and extends `State.Persists`. -/
theorem parametersAndStickyBitsStay : Obligations.ParametersAndStickyBitsStay := by
  intro s t h
  obtain ⟨hcfg, ⟨hover, hunder, hindex⟩, hbooted⟩ := step_persists h
  exact ⟨hcfg, hover, hunder, hindex, hbooted⟩

end Sys2Proof.Machine
end

section
/-! PROOFS. What instructions write and leave, and the invariants of the state: first when an instruction faults and the
frame of one that completes (spec/10_state.md R38, spec/60_exceptions.md R301); from these the invariants of memory, the
registers and the stack (R23, R30, R31, R34), then those of the ring buffer (R36) and the timers (R33), and what OBSERVE,
construction and reset give (R39, R40). -/

namespace Sys2Proof.Machine

open Sys2Proof.Claims

/-! ### When an instruction faults, and when it completes (R67, R301) -/

/-- How many bytes from I on an instruction addresses (R67, R203 to R205, R254). -/
def bytesAccessed : Instr → Nat
  | .drw _ _ n => n.toNat
  | .ldB _ => 3
  | .ldMemV x | .ldVMem x => x.toNat + 1
  | _ => 0

theorem State.rangeFaults_eq_true {s : State} {n : Nat} :
    s.rangeFaults n = true ↔ 0 < n ∧ 0x1000 < s.i.toNat + n := by
  rw [State.rangeFaults, decide_eq_true_iff]
  simp only [Config.addrMax, Config.memSize]
  omega

theorem State.rangeFaults_eq_false {s : State} {n : Nat} :
    s.rangeFaults n = false ↔ n = 0 ∨ s.i.toNat + n ≤ 0x1000 := by
  rw [← Bool.not_eq_true, State.rangeFaults_eq_true]
  omega

/-- What the table of R301 does not list as out of range passes the range check of the model. -/
theorem inRange_of_faultOf_none {i : Instr} {s : State} (h : faultOf i s = none) :
    s.rangeFaults (bytesAccessed i) = false := by
  rw [State.rangeFaults_eq_false]
  cases i with
  | drw | ldB | ldMemV | ldVMem =>
    simp only [faultOf, ite_eq_right_iff, reduceCtorEq, imp_false] at h
    simp only [bytesAccessed]
    omega
  | _ => exact .inl rfl

theorem withRange_inRange {s : State} {n : Nat} {e : Result} (h : s.rangeFaults n = false) : withRange s n e = e := by
  simp [withRange, h]

theorem withRange_outOfRange {s : State} {n : Nat} {e : Result} (h : s.rangeFaults n = true) :
    withRange s n e = takeFault s (.memOutOfRange s.lowestOut) := by
  simp [withRange, h]

/-- An instruction under a fault condition of R301 takes that fault. -/
theorem exec_eq_takeFault {i : Instr} {s : State} {f : Fault} (h : faultOf i s = some f) :
    exec i s = takeFault s f := by
  cases i with
  | ret =>
    obtain ⟨hsp, rfl⟩ : s.sp.val = 0 ∧ _ = f := by simpa [faultOf] using h
    exact if_pos hsp
  | call nnn =>
    obtain ⟨hsp, rfl⟩ : s.sp.val = 15 ∧ _ = f := by simpa [faultOf] using h
    exact dif_neg (by rw [hsp]; decide)
  | drw | ldB | ldMemV | ldVMem =>
    simp only [faultOf, Option.ite_none_right_eq_some, Option.some.injEq] at h
    obtain ⟨hrange, rfl⟩ := h
    exact withRange_outOfRange (State.rangeFaults_eq_true.2 (by omega))
  | _ => cases h

theorem exec_ret_completes {s : State} (h : faultOf .ret s = none) :
    exec .ret s = .next (s.pop.setPc (s.getStack s.sp)) :=
  if_neg (by simpa [faultOf] using h)

theorem exec_call_completes {nnn : Addr12} {s : State} (h : faultOf (.call nnn) s = none) :
    ∃ hroom, exec (.call nnn) s = .next ((s.push s.pc hroom).setPc (addrWord nnn)) := by
  have hsp : s.sp.val ≠ 15 := by simpa [faultOf] using h
  have hroom : s.sp.val < Config.spMax := Nat.lt_of_le_of_ne (Nat.le_of_lt_succ s.sp.isLt) hsp
  exact ⟨hroom, dif_pos hroom⟩

/-! ### Frames: one rule for each state operation -/

@[simp] theorem writeRF_mem (s : State) (x : Nibble) (r f : Byte) : (writeRF s x r f).mem = s.mem :=
  (congrArg State.mem (writeRF_eq s x r f)).trans rfl

@[simp] theorem loadRegs_mem (base n : Nat) (s : State) : (loadRegs base n s).mem = s.mem :=
  (congrArg State.mem (loadRegs_eq base n s)).trans rfl

@[simp] theorem State.advanceI_mem (s : State) (x : Nibble) : (s.advanceI x).mem = s.mem := by
  unfold State.advanceI
  split <;> rfl

@[simp] theorem State.consumeKey_mem (s : State) : s.consumeKey.mem = s.mem := by
  unfold State.consumeKey
  split <;> rfl

@[simp] theorem State.consumeKey_pc (s : State) : s.consumeKey.pc = s.pc := by
  unfold State.consumeKey
  split <;> rfl

/-- The same writes, and every byte of memory with them. -/
def Writes.orMemory (w : Writes) : Writes := { w with mem := fun _ => True }

namespace Frame

variable {w : Writes} {s t : State}

theorem refl (w : Writes) (s : State) : Frame w s s := by simp [Frame]

theorem i_eq (h : Frame w s t) (hw : ¬ w.i) : t.i = s.i := by
  obtain ⟨-, hi, -⟩ := h
  exact hi hw

theorem pc_eq (h : Frame w s t) (hw : ¬ w.pc) : t.pc = s.pc := by
  obtain ⟨-, -, hpc, -⟩ := h
  exact hpc hw

theorem getStack_eq (h : Frame w s t) {j : StackIndex} (hw : ¬ w.stack j) : t.getStack j = s.getStack j := by
  obtain ⟨-, -, -, -, hstack, -⟩ := h
  exact hstack j hw

theorem dt_eq (h : Frame w s t) (hw : ¬ w.dt) : t.dt = s.dt := by
  obtain ⟨-, -, -, -, -, hdt, -⟩ := h
  exact hdt hw

theorem st_eq (h : Frame w s t) (hw : ¬ w.st) : t.st = s.st := by
  obtain ⟨-, -, -, -, -, -, hst, -⟩ := h
  exact hst hw

theorem setV (h : Frame w s t) {x : Nibble} (hw : w.v x) (b : Byte) : Frame w s (t.setV x b) := by
  obtain ⟨hv, hrest⟩ := h
  exact ⟨fun r hr => (t.getV_setV_ne (fun e : r = x => hr (e ▸ hw)) b).trans (hv r hr), hrest⟩

theorem setI (h : Frame w s t) (hw : w.i) (a : Word) : Frame w s (t.setI a) := by
  obtain ⟨hv, -, hrest⟩ := h
  exact ⟨hv, (absurd hw ·), hrest⟩

theorem setPc (h : Frame w s t) (hw : w.pc) (a : Word) : Frame w s (t.setPc a) := by
  obtain ⟨hv, hi, -, hrest⟩ := h
  exact ⟨hv, hi, (absurd hw ·), hrest⟩

theorem pop (h : Frame w s t) (hw : w.sp) : Frame w s t.pop := by
  obtain ⟨hv, hi, hpc, -, hrest⟩ := h
  exact ⟨hv, hi, hpc, (absurd hw ·), hrest⟩

theorem push (h : Frame w s t) (hw : w.sp) (hj : ∀ j : StackIndex, j.val = t.sp.val + 1 → w.stack j) (a : Word)
    (hroom : t.sp.val < Config.spMax) : Frame w s (t.push a hroom) := by
  obtain ⟨hv, hi, hpc, -, hstack, hrest⟩ := h
  refine ⟨hv, hi, hpc, (absurd hw ·), fun j hwj => ?_, hrest⟩
  rw [State.getStack_push, if_neg (hwj ∘ hj j), hstack j hwj]

theorem setDt (h : Frame w s t) (hw : w.dt) (b : Byte) : Frame w s (t.setDt b) := by
  obtain ⟨hv, hi, hpc, hsp, hstack, -, hrest⟩ := h
  exact ⟨hv, hi, hpc, hsp, hstack, (absurd hw ·), hrest⟩

theorem setSt (h : Frame w s t) (hw : w.st) (b : Byte) : Frame w s (t.setSt b) := by
  obtain ⟨hv, hi, hpc, hsp, hstack, hdt, -, hrest⟩ := h
  exact ⟨hv, hi, hpc, hsp, hstack, hdt, (absurd hw ·), hrest⟩

theorem writeByte (h : Frame w s t) (hw : ∀ a, w.mem a) (a : Nat) (b : Byte) : Frame w s (t.writeByte a b) := by
  obtain ⟨hv, hi, hpc, hsp, hstack, hdt, hst, -, hrest⟩ := h
  exact ⟨hv, hi, hpc, hsp, hstack, hdt, hst, fun c hc => absurd (hw c) hc, hrest⟩

theorem setDisplay (h : Frame w s t) (hw : w.display) (d : Display) : Frame w s (t.setDisplay d) := by
  obtain ⟨hv, hi, hpc, hsp, hstack, hdt, hst, hmem, -, hrest⟩ := h
  exact ⟨hv, hi, hpc, hsp, hstack, hdt, hst, hmem, (absurd hw ·), hrest⟩

theorem setKey (h : Frame w s t) (hw : w.key) (k : Option Nibble) : Frame w s (t.setKey k) := by
  obtain ⟨hv, hi, hpc, hsp, hstack, hdt, hst, hmem, hdisplay, -, hrest⟩ := h
  exact ⟨hv, hi, hpc, hsp, hstack, hdt, hst, hmem, hdisplay, (absurd hw ·), hrest⟩

theorem countRandom (h : Frame w s t) (hw : w.random) : Frame w s t.countRandom := by
  obtain ⟨hv, hi, hpc, hsp, hstack, hdt, hst, hmem, hdisplay, hkey, -, hrest⟩ := h
  exact ⟨hv, hi, hpc, hsp, hstack, hdt, hst, hmem, hdisplay, hkey, (absurd hw ·), hrest⟩

theorem writeRF (h : Frame w s t) {x : Nibble} (hx : w.v x) (hF : w.v 0xF) (r f : Byte) :
    Frame w s (Machine.writeRF t x r f) := by
  unfold Machine.writeRF
  split
  · exact (h.setV hx r).setV hF f
  · exact (h.setV hF f).setV hx r

theorem writeBytes (h : Frame w s t) (hw : ∀ a, w.mem a) (a : Nat) (bs : List Byte) :
    Frame w s (Machine.writeBytes a bs t) := by
  induction bs generalizing a t with
  | nil => exact h
  | cons b bs ih => exact ih (h.writeByte hw a b) (a + 1)

theorem loadRegs (h : Frame w s t) {n : Nat} (hn : n ≤ 16) (hw : ∀ r : Nibble, r.toNat < n → w.v r) (base : Nat) :
    Frame w s (Machine.loadRegs base n t) := by
  induction n with
  | zero => exact h
  | succ n ih =>
    have hlast : (BitVec.ofNat 4 n).toNat = n := (BitVec.toNat_ofNat ..).trans (Nat.mod_eq_of_lt hn)
    exact (ih (by omega) fun r hr => hw r (by omega)).setV (hw _ (by omega)) _

theorem advanceI (h : Frame w s t) (hw : s.indexQuirk = true → w.i) (x : Nibble) : Frame w s (t.advanceI x) := by
  have hquirk : t.indexQuirk = s.indexQuirk := by
    obtain ⟨-, -, -, -, -, -, -, -, -, -, -, -, -, hquirk, -⟩ := h
    exact hquirk
  unfold State.advanceI
  split
  · exact h.setI (hw (by rwa [← hquirk])) _
  · exact h

theorem consumeKey (h : Frame w s t) (hw : s.cfg.fx0aConsumesKey = true → w.key) : Frame w s t.consumeKey := by
  have hcfg : t.cfg = s.cfg := by
    obtain ⟨-, -, -, -, -, -, -, -, -, -, -, hcfg, -⟩ := h
    exact hcfg
  unfold State.consumeKey
  split
  · exact h.setKey (hw (by rwa [← hcfg])) _
  · exact h

theorem skip (h : Frame w s t) (hw : w.pc) (holds : Bool) :
    ∃ u, skipIf t holds = .next u ∧ Frame w s u ∧ u.mem = t.mem := by
  cases holds
  · exact ⟨t, rfl, h, rfl⟩
  · exact ⟨_, rfl, h.setPc hw _, rfl⟩

end Frame

/-! ### What a completed instruction stores and writes (R38, R203, R204) -/

/-- The bytes an instruction stores from I on. -/
def storedBytes (i : Instr) (s : State) : List Byte :=
  match i with
  | .ldB x => bcdDigits (s.getV x)
  | .ldMemV x => s.regsUpTo x
  | _ => []

@[simp] theorem State.length_regsUpTo (s : State) (x : Nibble) : (s.regsUpTo x).length = x.toNat + 1 := by
  have := x.isLt
  simp [State.regsUpTo]
  omega

theorem storedBytes_length (i : Instr) (s : State) :
    storedBytes i s = [] ∨ (storedBytes i s).length = bytesAccessed i := by
  cases i with
  | ldB => exact .inr rfl
  | ldMemV x => exact .inr (s.length_regsUpTo x)
  | _ => exact .inl rfl

/-- The memory column of the access matrix: exactly the addresses of the stored bytes. -/
theorem writesOf_mem {i : Instr} {s : State} {a : Nat} :
    (writesOf i s).mem a ↔ s.i.toNat ≤ a ∧ a < s.i.toNat + (storedBytes i s).length := by
  cases i with
  | ldB => exact Iff.rfl
  | ldMemV x =>
    simp only [writesOf, storedBytes, State.length_regsUpTo]
    omega
  | _ =>
    simp only [writesOf, storedBytes, List.length_nil, false_iff]
    omega

/-- An instruction without a fault condition completes: it keeps its frame, the bytes of memory aside, and leaves memory as
its stores leave it. -/
theorem exec_completes {i : Instr} {s : State} (hf : faultOf i s = none) :
    ∃ t, exec i s = .next t ∧ Frame (writesOf i s).orMemory s t
      ∧ t.mem = (writeBytes s.i.toNat (storedBytes i s) s).mem := by
  have hr := inRange_of_faultOf_none hf
  have h0 := Frame.refl (writesOf i s).orMemory s
  cases i with
  | cls => exact ⟨_, rfl, h0.setDisplay trivial _, rfl⟩
  | ret => exact ⟨_, exec_ret_completes hf, (h0.pop trivial).setPc trivial _, rfl⟩
  | jp | jpV0 => exact ⟨_, rfl, h0.setPc trivial _, rfl⟩
  | call nnn =>
    obtain ⟨hroom, hexec⟩ := exec_call_completes hf
    exact ⟨_, hexec, (h0.push trivial (fun _ => id) _ hroom).setPc trivial _, rfl⟩
  | seImm | sneImm | seReg | sneReg | skp | sknp => exact h0.skip trivial _
  | ldImm | addImm | ldReg | orReg | andReg | xorReg | ldVDt => exact ⟨_, rfl, h0.setV rfl _, rfl⟩
  | addReg | subReg | shr | subn | shl =>
    exact ⟨_, rfl, h0.writeRF (.inl rfl) (.inr rfl) _ _, writeRF_mem s ..⟩
  | ldI | ldF => exact ⟨_, rfl, h0.setI trivial _, rfl⟩
  | addI => exact ⟨_, rfl, (h0.setI trivial _).setV rfl _, rfl⟩
  | rnd => exact ⟨_, rfl, (h0.countRandom trivial).setV rfl _, rfl⟩
  | drw => exact ⟨_, withRange_inRange hr, (h0.setDisplay trivial _).setV rfl _, rfl⟩
  | ldVK x =>
    cases hk : s.key with
    | none => exact ⟨s.setPc (s.pc - 2), by simp [exec, execLdVK, hk], h0.setPc trivial _, rfl⟩
    | some k =>
      exact ⟨(s.setV x (keyByte k)).consumeKey, by simp [exec, execLdVK, hk], (h0.setV rfl _).consumeKey id,
        State.consumeKey_mem _⟩
  | ldDt => exact ⟨_, rfl, h0.setDt trivial _, rfl⟩
  | ldSt => exact ⟨_, rfl, h0.setSt trivial _, rfl⟩
  | ldB => exact ⟨_, withRange_inRange hr, h0.writeBytes (fun _ => trivial) _ _, rfl⟩
  | ldMemV x =>
    exact ⟨_, withRange_inRange hr, (h0.writeBytes (fun _ => trivial) _ _).advanceI id x, State.advanceI_mem _ x⟩
  | ldVMem x =>
    have hx := x.isLt
    exact ⟨_, withRange_inRange hr, (h0.loadRegs (by omega) (fun r h => Nat.le_of_lt_succ h) _).advanceI id x,
      (State.advanceI_mem _ x).trans (loadRegs_mem ..)⟩

/-- Everything an instruction can do, as far as frames go: it takes its fault, or it completes. -/
theorem exec_cases {i : Instr} {s t : State} (h : exec i s = .next t) :
    (∃ f, t = faulted s f) ∨ (faultOf i s = none ∧ Frame (writesOf i s).orMemory s t
      ∧ t.mem = (writeBytes s.i.toNat (storedBytes i s) s).mem) := by
  cases hf : faultOf i s with
  | some f => exact .inl ⟨f, (Host.Outcome.next.inj ((exec_eq_takeFault hf).symm.trans h)).symm⟩
  | none =>
    obtain ⟨u, hu, hframe, hmem⟩ := exec_completes hf
    obtain rfl : u = t := Host.Outcome.next.inj (hu.symm.trans h)
    exact .inr ⟨rfl, hframe, hmem⟩

/-- A byte of memory is read from the cells, the glyph set and the boot counter alone. -/
theorem readByte_eq_of_mem {s t : State} (hu : t.unwritten = s.unwritten) (hmem : t.mem = s.mem) (a : Nat) :
    t.readByte a = s.readByte a := by
  have hcfg : t.cfg = s.cfg := congrArg Unwritten.cfg hu
  have hboots : t.boots = s.boots := congrArg Unwritten.boots hu
  rw [State.readByte, hcfg, hboots, hmem, State.readByte]

theorem readByte_writeBytes_outside {s : State} (h : cellsRising s.mem) {a : Nat} {bs : List Byte} {c : Nat}
    (hc : ¬ (a ≤ c ∧ c < a + bs.length)) : (writeBytes a bs s).readByte c = s.readByte c := by
  rw [readByte_writeBytes h]
  split
  · rw [List.getElem?_eq_none (by omega), Option.getD_none]
  · rfl

/-- Settles O39: the frame of a completed instruction, with memory read through its stores. -/
theorem instructionsKeepTheirFrame : Obligations.InstructionsKeepTheirFrame := by
  intro i s t hcanonical h hf
  obtain ⟨u, hu, hframe, hmem⟩ := exec_completes hf
  obtain rfl : u = t := Host.Outcome.next.inj (hu.symm.trans h)
  obtain ⟨hv, hi, hpc, hsp, hstack, hdt, hst, -, hrest⟩ := hframe
  refine ⟨hv, hi, hpc, hsp, hstack, hdt, hst, fun a ha => ?_, hrest⟩
  have hu : u.unwritten = (writeBytes s.i.toNat (storedBytes i s) s).unwritten := by
    rw [exec_keepsUnwritten i s u h, State.unwritten_writeBytes]
  rw [readByte_eq_of_mem hu hmem, readByte_writeBytes_outside hcanonical.1 (mt writesOf_mem.2 ha)]

/-! ### Memory stays canonical -/

/-- What ignores the timers, the audio state, the mailbox, the quirks and the schedule is kept by every step when STEP and
BOOT keep it: no other operation writes anything else (R310, R326, R330, R335, R337). -/
theorem step_keeps_of_interpret_boot {Inv : State → Prop}
    (hdevices : ∀ s dt st audio draws, Inv s →
      Inv { s with dt := dt, st := st, audio := audio, underrunDraws := draws })
    (hhost : ∀ s l k a b f, Inv s →
      Inv { s with schedule := l, key := k, shiftQuirk := a, indexQuirk := b, finished := f })
    (hstep : ∀ s t, Inv s → interpret s = .next t → Inv t) (hboot : ∀ s image, Inv s → Inv (s.boot image))
    {s t : State} (hs : Inv s) (h : step s = .next t) : Inv t := by
  refine step_keeps
    (hschedule := fun s l => hhost s l s.key s.shiftQuirk s.indexQuirk s.finished)
    (hstep := hstep)
    (htick := fun s k t hs h => ?tick)
    (hpull := fun s req t hs h => ?pull)
    (hkey := fun s k => hhost s s.schedule k s.shiftQuirk s.indexQuirk s.finished)
    (hquirks := fun s a b => hhost s s.schedule s.key a b s.finished)
    (hboot := hboot)
    (hfinish := fun s => hhost s s.schedule s.key s.shiftQuirk s.indexQuirk true) hs h
  case tick =>
    obtain ⟨-, ht, -⟩ := execTick_cases h
    rw [ht]
    exact hdevices s _ _ _ s.underrunDraws hs
  case pull =>
    obtain ⟨-, -, -, rfl⟩ := execPull_cases h
    exact hdevices s s.dt s.st _ _ hs

theorem exec_memoryCanonical {i : Instr} {s t : State} (hs : MemoryCanonical s) (h : exec i s = .next t) :
    MemoryCanonical t := by
  have hcfg : t.cfg = s.cfg := congrArg Unwritten.cfg (exec_keepsUnwritten i s t h)
  obtain ⟨f, rfl⟩ | ⟨hf, -, hmem⟩ := exec_cases h
  · exact hs
  · rw [MemoryCanonical, hcfg, hmem]
    obtain hnil | hlen := storedBytes_length i s
    · rw [hnil]
      exact hs
    · obtain hzero | hfits := State.rangeFaults_eq_false.1 (inRange_of_faultOf_none hf)
      · rw [List.length_eq_zero_iff.1 (hlen.trans hzero)]
        exact hs
      · exact writeBytes_wf hs (hlen ▸ hfits)

theorem interpret_memoryCanonical {s t : State} (hs : MemoryCanonical s) (h : interpret s = .next t) :
    MemoryCanonical t := by
  obtain ⟨-, -, -, ⟨-, rfl⟩ | ⟨-, i, -, hexec⟩ | ⟨-, -, rfl⟩⟩ := interpret_cases h
  · exact hs
  · exact exec_memoryCanonical (s := s.advance) hs hexec
  · exact hs

/-- Settles O54: the stores of an instruction are in range, and a boot lists glyph cells and image alone. -/
theorem memoryStaysCanonical : Obligations.MemoryStaysCanonical := by
  intro s t hs h
  exact step_keeps_of_interpret_boot (Inv := MemoryCanonical)
    (hdevices := fun _ _ _ _ _ hs => hs)
    (hhost := fun _ _ _ _ _ _ hs => hs)
    (hstep := fun _ _ => interpret_memoryCanonical)
    (hboot := fun _ image hs => bootMemory_wf hs image) hs h

/-! ### The registers and the stack stay in range -/

theorem addrWord_toNat_le (nnn : Addr12) : (addrWord nnn).toNat ≤ 0xFFF := by
  have := nnn.isLt
  rw [addrWord, BitVec.toNat_setWidth]
  omega

theorem and_addrMask_toNat_le (w : Word) : (w &&& addrMask).toNat ≤ 0xFFF := by
  rw [BitVec.toNat_and]
  exact Nat.and_le_right

/-- A skip moves pc by 0 or 2 (R141). -/
theorem skipIf_pc {s t : State} {holds : Bool} (h : skipIf s holds = .next t) : t.pc = s.pc ∨ t.pc = s.pc + 2 := by
  cases holds with
  | false => exact .inl (congrArg State.pc (Host.Outcome.next.inj h)).symm
  | true => exact .inr (congrArg State.pc (Host.Outcome.next.inj h)).symm

/-- The key wait moves pc by 0, or back to itself (R233). -/
theorem execLdVK_pc {x : Nibble} {s t : State} (h : execLdVK x s = .next t) : t.pc = s.pc ∨ t.pc = s.pc - 2 := by
  unfold execLdVK at h
  split at h
  · exact .inl ((congrArg State.pc (Host.Outcome.next.inj h)).symm.trans (State.consumeKey_pc _))
  · exact .inr (congrArg State.pc (Host.Outcome.next.inj h)).symm

/-- After the prelude of a fetch in range, an instruction leaves pc at most 0x1002 (R23). -/
theorem exec_pc_le {i : Instr} {s t : State} (hlow : 2 ≤ s.pc.toNat) (hpc : s.pc.toNat ≤ 0x1000)
    (hstack : ∀ j, (s.getStack j).toNat ≤ 0x1000) (h : exec i s = .next t) : t.pc.toNat ≤ 0x1002 := by
  have hback : (s.pc - 2).toNat ≤ 0x1002 := by bv_omega
  have hskip : (s.pc + 2).toNat ≤ 0x1002 := by bv_omega
  have hkeep : s.pc.toNat ≤ 0x1002 := by omega
  obtain ⟨f, rfl⟩ | ⟨hf, hframe, -⟩ := exec_cases h
  · exact hback
  cases i with
  | ret =>
    obtain rfl := Host.Outcome.next.inj ((exec_ret_completes hf).symm.trans h)
    exact (hstack s.sp).trans (by decide)
  | call nnn =>
    obtain ⟨hroom, hexec⟩ := exec_call_completes hf
    obtain rfl := Host.Outcome.next.inj (hexec.symm.trans h)
    exact (addrWord_toNat_le nnn).trans (by decide)
  | jp nnn =>
    obtain rfl := Host.Outcome.next.inj h
    exact (addrWord_toNat_le nnn).trans (by decide)
  | jpV0 =>
    obtain rfl := Host.Outcome.next.inj h
    exact (and_addrMask_toNat_le _).trans (by decide)
  | seImm | sneImm | seReg | sneReg | skp | sknp =>
    obtain hp | hp := skipIf_pc h
    · exact hp ▸ hkeep
    · exact hp ▸ hskip
  | ldVK =>
    obtain hp | hp := execLdVK_pc h
    · exact hp ▸ hkeep
    · exact hp ▸ hback
  | _ => exact hframe.pc_eq id ▸ hkeep

/-- Fx55 and Fx65 leave I where it was or move it past the bytes they accessed (R204, R205). -/
theorem advanceI_toNat_le {s : State} {x : Nibble} (hr : s.i.toNat + (x.toNat + 1) ≤ 0x1000) :
    (s.advanceI x).i.toNat ≤ 0x1000 := by
  unfold State.advanceI
  split
  · rw [State.setI_i]
    bv_omega
  · omega

/-- An instruction leaves I at most 0x1000 (R30). -/
theorem exec_i_le {i : Instr} {s t : State} (hi : s.i.toNat ≤ 0x1000) (h : exec i s = .next t) :
    t.i.toNat ≤ 0x1000 := by
  obtain ⟨f, rfl⟩ | ⟨hf, hframe, -⟩ := exec_cases h
  · exact hi
  have hr := inRange_of_faultOf_none hf
  cases i with
  | ldI nnn =>
    obtain rfl := Host.Outcome.next.inj h
    exact (addrWord_toNat_le nnn).trans (by decide)
  | addI | ldF =>
    obtain rfl := Host.Outcome.next.inj h
    exact (and_addrMask_toNat_le _).trans (by decide)
  | ldMemV x =>
    obtain rfl := Host.Outcome.next.inj ((withRange_inRange hr).symm.trans h)
    refine advanceI_toNat_le ?_
    rw [writeBytes_eq]
    exact (State.rangeFaults_eq_false.1 hr).resolve_left (Nat.succ_ne_zero _)
  | ldVMem x =>
    obtain rfl := Host.Outcome.next.inj ((withRange_inRange hr).symm.trans h)
    refine advanceI_toNat_le ?_
    rw [loadRegs_eq]
    exact (State.rangeFaults_eq_false.1 hr).resolve_left (Nat.succ_ne_zero _)
  | _ => exact hframe.i_eq id ▸ hi

/-- An instruction leaves a stack entry or, above entry 0, lists the return address there (R31, R122). -/
theorem exec_getStack {i : Instr} {s t : State} (h : exec i s = .next t) (j : StackIndex) :
    t.getStack j = s.getStack j ∨ j ≠ 0 ∧ t.getStack j = s.pc := by
  obtain ⟨f, rfl⟩ | ⟨hf, hframe, -⟩ := exec_cases h
  · exact .inl rfl
  cases i with
  | call nnn =>
    obtain ⟨hroom, hexec⟩ := exec_call_completes hf
    obtain rfl := Host.Outcome.next.inj (hexec.symm.trans h)
    rw [State.setPc_getStack, State.getStack_push]
    split
    next hj => exact .inr ⟨fun h0 => by simp [h0] at hj, rfl⟩
    next => exact .inl rfl
  | _ => exact .inl (hframe.getStack_eq id)

theorem exec_registersInRange {i : Instr} {s t : State} (hlow : 2 ≤ s.pc.toNat) (hpc : s.pc.toNat ≤ 0x1000)
    (hs : RegistersInRange s) (h : exec i s = .next t) : RegistersInRange t := by
  obtain ⟨-, hi, hstack, hzero⟩ := hs
  refine ⟨exec_pc_le hlow hpc hstack h, exec_i_le hi h, fun j => ?_, ?_⟩
  · obtain hj | ⟨-, hj⟩ := exec_getStack h j
    · exact hj ▸ hstack j
    · exact hj ▸ hpc
  · obtain hj | ⟨hne, -⟩ := exec_getStack h 0
    · exact hj.trans hzero
    · exact absurd rfl hne

theorem interpret_registersInRange {s t : State} (hs : RegistersInRange s) (h : interpret s = .next t) :
    RegistersInRange t := by
  have hadvance (hr : s.fetchFaults = false) : 2 ≤ s.advance.pc.toNat ∧ s.advance.pc.toNat ≤ 0x1000 := by
    rw [fetchFaults_eq, decide_eq_false_iff_not] at hr
    rw [State.advance_eq, State.setPc_pc]
    bv_omega
  have hprelude (hr : s.fetchFaults = false) : RegistersInRange s.advance := by
    obtain ⟨-, hrest⟩ := hs
    exact ⟨(hadvance hr).2.trans (by decide), hrest⟩
  obtain ⟨-, -, -, ⟨-, rfl⟩ | ⟨hr, i, -, hexec⟩ | ⟨hr, -, rfl⟩⟩ := interpret_cases h
  · exact hs
  · obtain ⟨hlow, hpc⟩ := hadvance hr
    exact exec_registersInRange hlow hpc (hprelude hr) hexec
  · exact hprelude hr

theorem State.boot_registersInRange (s : State) (image : List Byte) : RegistersInRange (s.boot image) := by
  have hstack (j : StackIndex) : (s.boot image).getStack j = 0 := by simp [State.getStack, State.boot]
  have hpc : (s.boot image).pc = 0x200 := rfl
  have hi : (s.boot image).i = 0 := rfl
  exact ⟨by rw [hpc]; decide, by rw [hi]; decide, fun j => by simp [hstack], hstack 0⟩

/-- Settles O55: pc, I and the stack each have a bound of their own after the prelude of a fetch in range. -/
theorem registersStayInRange : Obligations.RegistersStayInRange := by
  intro s t hs h
  exact step_keeps_of_interpret_boot (Inv := RegistersInRange)
    (hdevices := fun _ _ _ _ _ hs => hs)
    (hhost := fun _ _ _ _ _ _ hs => hs)
    (hstep := fun _ _ => interpret_registersInRange)
    (hboot := fun s image _ => s.boot_registersInRange image) hs h

/-! ### The ring buffer stays in range -/

/-- The cursors are offsets into data, at most CAP bytes are pending, and data lists offsets in rising order (R36). -/
structure Audio.InRange (p : Params) (a : Audio) : Prop where
  playCursor : a.playCursor < p.cap
  writeCursor : a.writeCursor < p.cap
  length : a.length ≤ p.cap
  rising : cellsRising a.data
  offsets : ∀ c ∈ a.data, c.1 < p.cap

theorem audioInRange_iff {s : State} :
    AudioInRange s ↔ (s.cfg.audioWellFormed = true → s.audio.InRange s.cfg) :=
  forall_congr' fun _ =>
    ⟨fun ⟨hp, hw, hl, hr, ho⟩ => ⟨hp, hw, hl, hr, ho⟩, fun ⟨hp, hw, hl, hr, ho⟩ => ⟨hp, hw, hl, hr, ho⟩⟩

theorem Audio.InRange.putByte {p : Params} {a : Audio} (h : a.InRange p) (b : Byte) : (a.putByte p b).InRange p where
  playCursor := h.playCursor
  writeCursor := Nat.mod_lt _ (Nat.zero_lt_of_lt h.writeCursor)
  length := h.length
  rising := cellsRising_insert h.rising _ _
  offsets c hc := by
    obtain rfl | hc := mem_cellInsert hc
    · exact h.writeCursor
    · exact h.offsets c hc

theorem Audio.InRange.putBytes {p : Params} {a : Audio} (h : a.InRange p) (bs : List Byte) :
    (bs.foldl (Audio.putByte p) a).InRange p := by
  induction bs generalizing a with
  | nil => exact h
  | cons b bs ih => exact ih (h.putByte b)

/-- A Generate wraps the cursor, and caps what is pending (R322, R323). -/
theorem Audio.InRange.generate {p : Params} {a : Audio} (h : a.InRange p) (play : Bool) (k : Nat) :
    (a.generate p play k).InRange p := by
  obtain ⟨hplay, hwrite, -, hrising, hoffsets⟩ := h.putBytes (waveFrames p play a.runningSampleIndex k)
  rw [Audio.generate, putFrames_eq]
  exact ⟨hplay, hwrite, Nat.min_le_left _ _, hrising, hoffsets⟩

/-- A PULL wraps the cursor, and takes from what is pending (R326). -/
theorem Audio.InRange.pulled {p : Params} {a : Audio} (h : a.InRange p) (req : Nat) : (a.pulled p req).InRange p where
  playCursor := Nat.mod_lt _ (Nat.zero_lt_of_lt h.writeCursor)
  writeCursor := h.writeCursor
  length := (Nat.sub_le _ _).trans h.length
  rising := h.rising
  offsets := h.offsets

theorem audioInRange_of_eq {s t : State} (hc : t.cfg = s.cfg) (ha : t.audio = s.audio) (hs : AudioInRange s) :
    AudioInRange t := by
  rw [audioInRange_iff, hc, ha]
  exact audioInRange_iff.1 hs

theorem interpret_audioInRange {s t : State} (hs : AudioInRange s) (h : interpret s = .next t) : AudioInRange t :=
  have hu := interpret_unwritten h
  audioInRange_of_eq (congrArg Unwritten.cfg hu) (congrArg Unwritten.audio hu) hs

theorem execTick_audioInRange {k : Nat} {s t : State} (hs : AudioInRange s) (h : execTick k s = .next t) :
    AudioInRange t := by
  have hcfg := (execTick_persists h).cfg
  obtain ⟨-, -, ⟨-, ha⟩ | ⟨-, -, ha⟩⟩ := execTick_cases h
  · exact audioInRange_of_eq hcfg ha hs
  · rw [audioInRange_iff, hcfg, ha]
    exact fun hwf => (audioInRange_iff.1 hs hwf).generate _ _

theorem execPull_audioInRange {req : Nat} {s t : State} (hs : AudioInRange s) (h : execPull req s = .next t) :
    AudioInRange t := by
  obtain ⟨-, -, -, rfl⟩ := execPull_cases h
  exact audioInRange_iff.2 fun hwf => (audioInRange_iff.1 hs hwf).pulled req

/-- Settles O56: only TICK and PULL write the audio state. -/
theorem audioStaysInRange : Obligations.AudioStaysInRange := by
  intro s t hs h
  exact step_keeps (Inv := AudioInRange)
    (hschedule := fun _ _ hs => hs)
    (hstep := fun _ _ => interpret_audioInRange)
    (htick := fun _ _ _ => execTick_audioInRange)
    (hpull := fun _ _ _ => execPull_audioInRange)
    (hkey := fun _ _ hs => hs)
    (hquirks := fun _ _ _ hs => hs)
    (hboot := fun _ _ hs => hs)
    (hfinish := fun _ hs => hs) hs h

/-! ### The timers fall unless they are loaded -/

/-- The word of the claims is the word of the fetch (R64). -/
theorem nextWord_eq_fetchWord (s : State) : nextWord s = s.fetchWord := by
  have hlow := (s.readByte (s.pc.toNat + 1)).isLt
  apply BitVec.eq_of_toNat_eq
  rw [nextWord, State.fetchWord, wordOfBytes, BitVec.toNat_append, ← Nat.shiftLeft_add_eq_or_of_lt hlow,
    Nat.shiftLeft_eq, BitVec.toNat_ofNat]
  omega

/-- An instruction leaves each timer, unless it is the one that loads it (R33). -/
theorem exec_timers {i : Instr} {s t : State} (h : exec i s = .next t) :
    (t.dt = s.dt ∨ ∃ x, i = .ldDt x ∧ t.dt = s.getV x) ∧ (t.st = s.st ∨ ∃ x, i = .ldSt x ∧ t.st = s.getV x) := by
  obtain ⟨f, rfl⟩ | ⟨-, hframe, -⟩ := exec_cases h
  · exact ⟨.inl rfl, .inl rfl⟩
  cases i with
  | ldDt x =>
    obtain rfl := Host.Outcome.next.inj h
    exact ⟨.inr ⟨x, rfl, rfl⟩, .inl rfl⟩
  | ldSt x =>
    obtain rfl := Host.Outcome.next.inj h
    exact ⟨.inl rfl, .inr ⟨x, rfl, rfl⟩⟩
  | _ => exact ⟨.inl (hframe.dt_eq id), .inl (hframe.st_eq id)⟩

/-- A STEP leaves each timer, unless it fetches and executes the instruction that loads it (R33). -/
theorem interpret_timers {s t : State} (h : interpret s = .next t) :
    (t.dt = s.dt ∨ s.fetchFaults = false ∧ ∃ x, decode (nextWord s) = .ok (.ldDt x) ∧ t.dt = s.getV x)
    ∧ (t.st = s.st ∨ s.fetchFaults = false ∧ ∃ x, decode (nextWord s) = .ok (.ldSt x) ∧ t.st = s.getV x) := by
  obtain ⟨-, -, -, ⟨-, rfl⟩ | ⟨hr, i, hdecode, hexec⟩ | ⟨-, -, rfl⟩⟩ := interpret_cases h
  · exact ⟨.inl rfl, .inl rfl⟩
  · rw [← nextWord_eq_fetchWord] at hdecode
    obtain ⟨hdt, hst⟩ := exec_timers hexec
    refine ⟨hdt.imp id ?_, hst.imp id ?_⟩ <;>
    · rintro ⟨x, rfl, hx⟩
      exact ⟨hr, x, hdecode, hx⟩
  · exact ⟨.inl rfl, .inl rfl⟩

/-- No operation but a STEP raises a timer (R310, R371). -/
theorem perform_timers_le {op : HostOp} {s t : State} (hop : op ≠ .step) (h : perform op s = .next t) :
    t.dt.toNat ≤ s.dt.toNat ∧ t.st.toNat ≤ s.st.toNat := by
  cases op with
  | step => exact absurd rfl hop
  | tick k =>
    obtain ⟨-, ht, -⟩ := execTick_cases h
    rw [ht]
    simp only [timerDown_toNat]
    omega
  | pull req =>
    obtain ⟨-, -, -, rfl⟩ := execPull_cases h
    exact ⟨Nat.le_refl _, Nat.le_refl _⟩
  | boot image =>
    obtain rfl := Host.Outcome.next.inj h
    exact ⟨Nat.zero_le _, Nat.zero_le _⟩
  | setKey | setQuirks | observe | finish =>
    obtain rfl := Host.Outcome.next.inj h
    exact ⟨Nat.le_refl _, Nat.le_refl _⟩

/-- Settles O43: a transition is a STEP, whose instruction loads a timer or leaves it, or lowers both. -/
theorem timersFallUnlessLoaded : Obligations.TimersFallUnlessLoaded := by
  intro s t h
  by_cases hstep : IsStep s
  · obtain ⟨hdt, hst⟩ := interpret_timers (step_is_interpret hstep ▸ h)
    exact ⟨hdt.imp (fun e => (congrArg BitVec.toNat e).le) (⟨hstep, ·⟩),
      hst.imp (fun e => (congrArg BitVec.toNat e).le) (⟨hstep, ·⟩)⟩
  · cases hl : s.schedule with
    | nil => exact absurd (.inl hl) hstep
    | cons op rest =>
      have hop : op ≠ .step := fun e => hstep (.inr (by rw [hl, e]; rfl))
      obtain ⟨hdt, hst⟩ := perform_timers_le hop (step_scheduled hl ▸ h)
      exact ⟨.inl hdt, .inl hst⟩

/-! ### OBSERVE -/

/-- Reading row-major: in a list of rows of one length, the cell (r, c) is at place r · n + c. -/
theorem getElem?_flatten_rows {α : Type} {n : Nat} {rows : List (List α)} (hrows : ∀ row ∈ rows, row.length = n)
    (r : Nat) {c : Nat} (hc : c < n) : rows.flatten[r * n + c]? = rows[r]?.bind (·[c]?) := by
  induction rows generalizing r with
  | nil => simp
  | cons row rows ih =>
    obtain ⟨hrow, hrows⟩ := List.forall_mem_cons.1 hrows
    cases r with
    | zero => simp [List.getElem?_append_left, hrow, hc]
    | succ r =>
      have hplace : (r + 1) * n + c = n + (r * n + c) := by rw [Nat.succ_mul]; omega
      rw [List.flatten_cons, hplace, List.getElem?_append_right (by omega), hrow, Nat.add_sub_cancel_left, ih hrows]
      rfl

/-- OBSERVE presents the cell (row, col) as its pixel constant, at place row · 64 + col (R252). -/
theorem observe_display_getElem? (s : State) (row : Row) (col : Col) :
    s.observe.display[row.val * 64 + col.val]? = some (pixelWord s.cfg (Display.get s.display row col)) := by
  have hrows : ∀ l ∈ s.display.toList.map (fun r => r.toList.map (pixelWord s.cfg)), l.length = 64 := by
    simp
  rw [State.observe, getElem?_flatten_rows hrows _ col.isLt]
  simp [Display.get]

theorem pixelOff_ne_pixelOn (p : Params) : p.pixelOff ≠ p.pixelOn := bne_iff_ne.1 p.pixels.distinct

/-- Two cells are shown as the same word exactly when they hold the same value (R251). -/
theorem pixelWord_inj (p : Params) {a b : Pixel} : pixelWord p a = pixelWord p b ↔ a = b := by
  have hne := pixelOff_ne_pixelOn p
  cases a <;> cases b <;> simp [pixelWord, hne, hne.symm]

/-- Settles O60: a cell is observed as its pixel constant, and the two constants are distinct. -/
theorem observeReturnsTheListedState : Obligations.ObserveReturnsTheListedState := by
  intro s
  refine ⟨rfl, fun r => Vector.getElem?_eq_getElem r.isLt, fun j => Vector.getElem?_eq_getElem j.isLt,
    rfl, rfl, rfl, rfl, rfl, pixelOff_ne_pixelOn s.cfg, fun row row' col col' => ?_⟩
  rw [observe_display_getElem?, observe_display_getElem?, Option.some_inj, pixelWord_inj]

/-! ### Construction and reset -/

theorem cap_pos_of_audioWellFormed {p : Params} (h : p.audioWellFormed = true) : 0 < p.cap := by
  have hbad : ¬ BadAudio p := (audioWellFormed_iff p).1 h
  exact Nat.pos_of_ne_zero fun hcap => hbad (.inl hcap)

/-- With the audio state of construction, whatever the parameters, both audio invariants hold (R370). -/
theorem audio_constructed_invariants {s : State} (h : s.audio = Audio.constructed) : AudioInRange s ∧ CursorsAgree s := by
  constructor
  · intro hwf
    have hcap := cap_pos_of_audioWellFormed hwf
    rw [h]
    exact ⟨hcap, hcap, Nat.zero_le _, List.Pairwise.nil, List.forall_mem_nil _⟩
  · intro _ _ _
    rw [h]
    exact (Nat.zero_mod _).symm

/-- Settles O59: memory and the ring buffer start empty, and a boot puts the registers in range. -/
theorem resetMeetsTheInvariants : Obligations.ResetMeetsTheInvariants := by
  obtain ⟨hrange, hagree⟩ := audio_constructed_invariants (s := State.reset) rfl
  refine ⟨reset_eq_boot, reset_memory_wf, reset_eq_boot ▸ State.boot_registersInRange _ _, hrange, hagree, rfl, rfl, rfl,
    fun p => ?_⟩
  obtain ⟨hrange, hagree⟩ := audio_constructed_invariants (s := State.constructed p) rfl
  exact ⟨⟨List.Pairwise.nil, List.forall_mem_nil _⟩, hrange, hagree, rfl, fun _ h => readByte_constructed_font p h,
    rfl, rfl, rfl, rfl, rfl, rfl, rfl, rfl, rfl, rfl, rfl⟩

end Sys2Proof.Machine
end

section
/-! PROOFS. Memory and the operations over it (spec/20_memory.md): which byte of a store the fetch sees (R64, R77), what
Fx55 and Fx65 leave at and take from the addresses from I on (R68, R204, R205), the order of the operations (R72), and
what the host's settings replace (R74, R330, R335). -/

namespace Sys2Proof.Machine

open Sys2Proof.Claims

/-! ### The bytes of the word at pc (R64) -/

/-- The byte at pc is the upper byte of the word. -/
theorem nextWord_upper (s : State) : (nextWord s).toNat / 256 = (s.readByte s.pc.toNat).toNat := by
  rw [nextWord, BitVec.toNat_ofNat]
  omega

/-- The byte after pc is the lower byte of the word. -/
theorem nextWord_lower (s : State) : (nextWord s).toNat % 256 = (s.readByte (s.pc.toNat + 1)).toNat := by
  rw [nextWord, BitVec.toNat_ofNat]
  omega

theorem State.readByte_writeByte_self {s : State} (h : cellsRising s.mem) (a : Nat) (b : Byte) :
    (s.writeByte a b).readByte a = b :=
  (State.readByte_writeByte h a b a).trans (if_pos rfl)

/-- Settles O11: a store leaves pc, and the fetch reads the stored byte back (R68). -/
theorem storedByteIsFetched : Obligations.StoredByteIsFetched := by
  intro s a b ⟨hrising, _⟩ _
  constructor
  · rintro rfl
    rw [nextWord_upper, State.writeByte_pc, State.readByte_writeByte_self hrising]
  · rintro rfl
    rw [nextWord_lower, State.writeByte_pc, State.readByte_writeByte_self hrising]

/-! ### Registers stored and loaded (R204, R205) -/

@[simp] theorem State.advanceI_getV (s : State) (x r : Nibble) : (s.advanceI x).getV r = s.getV r := by
  unfold State.advanceI
  split <;> rfl

theorem State.getElem?_regsUpTo (s : State) {x r : Nibble} (h : r.toNat ≤ x.toNat) :
    (s.regsUpTo x)[r.toNat]? = some (s.getV r) := by
  rw [State.regsUpTo, List.getElem?_take_of_lt (Nat.lt_succ_of_le h), Vector.getElem?_toList]
  exact Vector.getElem?_eq_getElem r.isLt

/-- In range, Fx55 completes and leaves each of V0 to Vx at its address from I on. -/
theorem exec_ldMemV_readByte {x : Nibble} {s : State} (hs : MemoryCanonical s) (h : s.i.toNat + x.toNat ≤ 0xFFF) :
    ∃ t, exec (.ldMemV x) s = .next t
      ∧ ∀ r : Nibble, r.toNat ≤ x.toNat → t.readByte (s.i.toNat + r.toNat) = s.getV r := by
  obtain ⟨hrising, -⟩ := hs
  obtain ⟨t, ht, -, hmem⟩ := exec_completes (i := .ldMemV x) (if_neg (Nat.not_lt.2 h))
  refine ⟨t, ht, fun r hr => ?_⟩
  have hu : t.unwritten = (writeBytes s.i.toNat (s.regsUpTo x) s).unwritten := by
    rw [exec_keepsUnwritten _ s t ht, State.unwritten_writeBytes]
  rw [readByte_eq_of_mem hu hmem, readByte_writeBytes hrising, if_pos (Nat.le_add_right _ _), Nat.add_sub_cancel_left,
    State.getElem?_regsUpTo s hr, Option.getD_some]

/-- In range, Fx65 completes and leaves in each of V0 to Vx the byte at its address from I on. -/
theorem exec_ldVMem_getV {x : Nibble} {s : State} (h : s.i.toNat + x.toNat ≤ 0xFFF) :
    ∃ t, exec (.ldVMem x) s = .next t
      ∧ ∀ r : Nibble, r.toNat ≤ x.toNat → t.getV r = s.readByte (s.i.toNat + r.toNat) := by
  have hrange := inRange_of_faultOf_none (i := .ldVMem x) (if_neg (Nat.not_lt.2 h))
  refine ⟨_, withRange_inRange hrange, fun r hr => ?_⟩
  rw [State.advanceI_getV, getV_loadRegs _ _ x.isLt, if_pos (Nat.lt_succ_of_le hr)]

/-- Settles O31: the load reads the addresses the store wrote, and the registers between them are not memory. -/
theorem storeThenLoadRestoresRegisters : Obligations.StoreThenLoadRestoresRegisters := by
  intro x s v hs h
  obtain ⟨t, hstore, hstored⟩ := exec_ldMemV_readByte hs h
  obtain ⟨u, hload, hloaded⟩ := exec_ldVMem_getV (s := { t with v := v, i := s.i }) h
  exact ⟨t, u, hstore, hload, fun r hr => (hloaded r hr).trans (hstored r hr)⟩

/-! ### The order of the operations, and the host's settings (R72, R74) -/

/-- Settles O10: the rule of a step with a schedule. -/
theorem scheduledOperationComesNext : Obligations.ScheduledOperationComesNext :=
  fun _ _ _ => step_scheduled

theorem perform_setKey (v : Option Nibble) (s : State) : perform (.setKey v) s = .next (s.setKey v) := rfl

theorem perform_setQuirks (shift index : Bool) (s : State) :
    perform (.setQuirks shift index) s = .next { s with shiftQuirk := shift, indexQuirk := index } := rfl

/-- The mailbox holds one value: a later one replaces it (R74). -/
@[simp] theorem State.setKey_setKey (s : State) (v v' : Option Nibble) : (s.setKey v).setKey v' = s.setKey v' := rfl

/-- Settles O50: SET_KEY keeps the frame of the mailbox, and a second SET_KEY gives the state of that one alone. -/
theorem hostSettingsReplace : Obligations.HostSettingsReplace := by
  intro s v v' shift index
  have hlast : perform (.setKey v') (s.setKey v) = .next (s.setKey v') := by
    rw [perform_setKey, State.setKey_setKey]
  exact ⟨_, _, _, perform_setKey v s, hlast, perform_setQuirks shift index s, (Frame.refl _ s).setKey trivial v,
    State.setKey_key s v, State.setKey_key s v', perform_setKey v' s, rfl, rfl, rfl⟩

end Sys2Proof.Machine
end

section
/-! PROOFS. The encoding (spec/30_encoding.md R91 to R101): a word is put together again from its fields (R91, R93), decode
is walked once against encode and the list of R96, a row of R95 is matched by the words that decode to it and by no other,
and a STEP runs the word at pc by what it decodes to. -/

namespace Sys2Proof

open Sys2Proof.Claims

/-! ### A word and its fields (R91, R93) -/

theorem formA_fields (w : Word) : formA (fieldOp w) (fieldNNN w) = w :=
  (BitVec.extractLsb'_append_extractLsb'_eq_extractLsb' rfl).trans BitVec.extractLsb'_eq_self

/-- nnn = x · 256 + kk. -/
theorem fieldX_append_fieldKK (w : Word) : fieldX w ++ fieldKK w = fieldNNN w :=
  BitVec.extractLsb'_append_extractLsb'_eq_extractLsb' rfl

/-- kk = y · 16 + n. -/
theorem fieldY_append_fieldN (w : Word) : fieldY w ++ fieldN w = fieldKK w :=
  BitVec.extractLsb'_append_extractLsb'_eq_extractLsb' rfl

theorem formXK_fields (w : Word) : formXK (fieldOp w) (fieldX w) (fieldKK w) = w := by
  rw [formXK, fieldX_append_fieldKK]
  exact formA_fields w

theorem formXYN_fields (w : Word) : formXYN (fieldOp w) (fieldX w) (fieldY w) (fieldN w) = w := by
  rw [formXYN, fieldY_append_fieldN]
  exact formXK_fields w

theorem fieldOp_toNat (w : Word) : (fieldOp w).toNat = w.toNat / 0x1000 := by
  rw [fieldOp, BitVec.extractLsb'_toNat, Nat.shiftRight_eq_div_pow]
  omega

theorem fieldN_toNat (w : Word) : (fieldN w).toNat = w.toNat % 16 := BitVec.extractLsb'_toNat ..

theorem fieldKK_toNat (w : Word) : (fieldKK w).toNat = w.toNat % 256 := BitVec.extractLsb'_toNat ..

theorem fieldKK_and (w m : Word) : fieldKK (w &&& m) = fieldKK w &&& fieldKK m := BitVec.extractLsb'_and ..

/-! ### The decoder undoes the encoder -/

/-- Settles O1: decode reads back the group, the sub-operation and the operands that the format of `i` wrote. -/
theorem encodedInstructionsDecode : Obligations.EncodedInstructionsDecode := by
  intro i
  cases i with
  | cls | ret => rfl
  | jp | call | ldI | jpV0 =>
    simp only [encode, decode, fieldOp_formA, fieldNNN_formA]
    rfl
  | seImm | sneImm | ldImm | addImm | rnd =>
    simp only [encode, decode, fieldOp_formXK, fieldX_formXK, fieldKK_formXK]
    rfl
  | drw =>
    simp only [encode, decode, fieldOp_formXYN, fieldX_formXYN, fieldY_formXYN, fieldN_formXYN]
    rfl
  | seReg | sneReg | ldReg | orReg | andReg | xorReg | addReg | subReg | shr | subn | shl =>
    simp only [encode, decode, decodeTrailingZero, decodeGroup8, fieldOp_formXYN, fieldX_formXYN, fieldY_formXYN,
      fieldN_formXYN]
    rfl
  | skp | sknp | ldVDt | ldVK | ldDt | ldSt | addI | ldF | ldB | ldMemV | ldVMem =>
    simp only [encode, decode, decodeGroupE, decodeGroupF, fieldOp_formXK, fieldX_formXK, fieldKK_formXK]
    rfl

/-! ### What decode answers (R94, R96) -/

/-- The list of R96 in the terms that decode dispatches on. -/
theorem unrecognizedByList_iff_fields (w : Word) : unrecognizedByList w ↔
    ((fieldOp w).toNat = 0x0 ∧ w.toNat ≠ 0x00E0 ∧ w.toNat ≠ 0x00EE)
    ∨ ((fieldOp w).toNat = 0x5 ∧ (fieldN w).toNat ≠ 0)
    ∨ ((fieldOp w).toNat = 0x8 ∧ (fieldN w).toNat ∈ [0x8, 0x9, 0xA, 0xB, 0xC, 0xD, 0xF])
    ∨ ((fieldOp w).toNat = 0x9 ∧ (fieldN w).toNat ≠ 0)
    ∨ ((fieldOp w).toNat = 0xE ∧ (fieldKK w).toNat ∉ [0x9E, 0xA1])
    ∨ ((fieldOp w).toNat = 0xF ∧ (fieldKK w).toNat ∉ [0x07, 0x0A, 0x15, 0x18, 0x1E, 0x29, 0x33, 0x55, 0x65]) := by
  have hgroup0 : w.toNat / 0x1000 = 0 ↔ w.toNat < 0x1000 := Nat.div_eq_zero_iff_lt (by decide)
  rw [fieldOp_toNat, fieldN_toNat, fieldKK_toNat, hgroup0]

/-- The two answers that decode may give on `w`: an instruction whose word is `w`, when the list of R96 does not hold `w`,
and the rejection of `w`, when it does. -/
def DecodeAnswer (w : Word) (r : Except Reject Instr) : Prop :=
  (∃ i, r = .ok i ∧ encode i = w ∧ ¬ unrecognizedByList w) ∨ r = .error (.unrecognized w) ∧ unrecognizedByList w

theorem DecodeAnswer.accepted {w : Word} {i : Instr} (hencode : encode i = w) (hlist : ¬ unrecognizedByList w) :
    DecodeAnswer w (.ok i) :=
  .inl ⟨i, rfl, hencode, hlist⟩

theorem DecodeAnswer.rejected {w : Word} (hlist : unrecognizedByList w) : DecodeAnswer w (.error (.unrecognized w)) :=
  .inr ⟨rfl, hlist⟩

section Groups

variable {w : Word} {op n : Nibble} {kk : Byte}

theorem formA_of_fields (hop : (fieldOp w).toNat = op.toNat) : formA op (fieldNNN w) = w :=
  BitVec.eq_of_toNat_eq hop ▸ formA_fields w

theorem formXK_of_fields (hop : (fieldOp w).toNat = op.toNat) (hkk : (fieldKK w).toNat = kk.toNat) :
    formXK op (fieldX w) kk = w :=
  BitVec.eq_of_toNat_eq hop ▸ BitVec.eq_of_toNat_eq hkk ▸ formXK_fields w

theorem formXYN_of_fields (hop : (fieldOp w).toNat = op.toNat) (hn : (fieldN w).toNat = n.toNat) :
    formXYN op (fieldX w) (fieldY w) n = w :=
  BitVec.eq_of_toNat_eq hop ▸ BitVec.eq_of_toNat_eq hn ▸ formXYN_fields w

theorem decodeGroup0_answer (hop : (fieldOp w).toNat = 0x0) : DecodeAnswer w (decodeGroup0 w) := by
  have hlist := unrecognizedByList_iff_fields w
  unfold decodeGroup0
  split
  case h_1 hw | h_2 hw => exact .accepted (BitVec.eq_of_toNat_eq hw.symm) (by simp [hlist, hop, hw])
  case h_3 hcls hret => exact .rejected (hlist.2 (.inl ⟨hop, hcls, hret⟩))

/-- Groups 5 and 9. -/
theorem decodeTrailingZero_answer {i : Instr} (hop : (fieldOp w).toNat = 0x5 ∨ (fieldOp w).toNat = 0x9)
    (hi : (fieldN w).toNat = 0 → encode i = w) : DecodeAnswer w (decodeTrailingZero w i) := by
  have hlist : unrecognizedByList w ↔ (fieldN w).toNat ≠ 0 := by
    obtain hop | hop := hop <;> simp [unrecognizedByList_iff_fields, hop]
  unfold decodeTrailingZero
  split
  case h_1 hn => exact .accepted (hi hn) (by simp [hlist, hn])
  case h_2 hn => exact .rejected (hlist.2 hn)

theorem decodeGroup8_answer (hop : (fieldOp w).toNat = 0x8) : DecodeAnswer w (decodeGroup8 w) := by
  have hlist : unrecognizedByList w ↔ (fieldN w).toNat ∈ [0x8, 0x9, 0xA, 0xB, 0xC, 0xD, 0xF] := by
    simp [unrecognizedByList_iff_fields, hop]
  unfold decodeGroup8
  split
  case h_10 =>
    have hlt := (fieldN w).isLt
    refine .rejected (hlist.2 ?_)
    simp only [List.mem_cons, List.not_mem_nil, imp_false] at *
    omega
  all_goals next hn => exact .accepted (formXYN_of_fields hop hn) (by simp [hlist, hn])

theorem decodeGroupE_answer (hop : (fieldOp w).toNat = 0xE) : DecodeAnswer w (decodeGroupE w) := by
  have hlist : unrecognizedByList w ↔ (fieldKK w).toNat ∉ [0x9E, 0xA1] := by
    simp [unrecognizedByList_iff_fields, hop]
  unfold decodeGroupE
  split
  case h_3 hskp hsknp => exact .rejected (hlist.2 (by simpa using ⟨hskp, hsknp⟩))
  all_goals next hkk => exact .accepted (formXK_of_fields hop hkk) (by simp [hlist, hkk])

theorem decodeGroupF_answer (hop : (fieldOp w).toNat = 0xF) : DecodeAnswer w (decodeGroupF w) := by
  have hlist : unrecognizedByList w ↔ (fieldKK w).toNat ∉ [0x07, 0x0A, 0x15, 0x18, 0x1E, 0x29, 0x33, 0x55, 0x65] := by
    simp [unrecognizedByList_iff_fields, hop]
  unfold decodeGroupF
  split
  case h_10 => exact .rejected (hlist.2 (by simp_all))
  all_goals next hkk => exact .accepted (formXK_of_fields hop hkk) (by simp [hlist, hkk])

/-- A group without sub-dispatch holds no unrecognized word. -/
theorem not_unrecognizedByList_of_group {g : Nat} (hop : (fieldOp w).toNat = g)
    (hg : g ∉ [0x0, 0x5, 0x8, 0x9, 0xE, 0xF]) : ¬ unrecognizedByList w := by
  simp only [List.mem_cons, List.not_mem_nil, not_or] at hg
  simp [unrecognizedByList_iff_fields, hop, hg]

end Groups

/-- Everything decode does, on every word; case `h_k` of its match is group k - 1, and `h_17` is no group. -/
theorem decode_answer (w : Word) : DecodeAnswer w (decode w) := by
  unfold decode
  split
  case h_1 hop => exact decodeGroup0_answer hop
  case h_6 hop => exact decodeTrailingZero_answer (.inl hop) fun hn => formXYN_of_fields hop hn
  case h_9 hop => exact decodeGroup8_answer hop
  case h_10 hop => exact decodeTrailingZero_answer (.inr hop) fun hn => formXYN_of_fields hop hn
  case h_15 hop => exact decodeGroupE_answer hop
  case h_16 hop => exact decodeGroupF_answer hop
  case h_17 =>
    have hlt := (fieldOp w).isLt
    simp only [imp_false] at *
    omega
  case h_2 hop | h_3 hop | h_11 hop | h_12 hop =>
    exact .accepted (formA_of_fields hop) (not_unrecognizedByList_of_group hop (by decide))
  case h_14 hop => exact .accepted (formXYN_of_fields hop rfl) (not_unrecognizedByList_of_group hop (by decide))
  all_goals next hop => exact .accepted (formXK_of_fields hop rfl) (not_unrecognizedByList_of_group hop (by decide))

/-- Settles O2: of the two answers it is the first, and the instruction is the one of that answer. -/
theorem decodedWordsAreTheirEncodings : Obligations.DecodedWordsAreTheirEncodings := by
  intro w i h
  obtain ⟨j, hj, hencode, -⟩ | ⟨herror, -⟩ := decode_answer w
  · obtain rfl : j = i := Except.ok.inj (hj.symm.trans h)
    exact hencode
  · cases herror.symm.trans h

theorem decode_eq_error_iff (w : Word) : decode w = .error (.unrecognized w) ↔ unrecognizedByList w := by
  obtain ⟨i, hd, -, hlist⟩ | ⟨hd, hlist⟩ := decode_answer w
  · simp [hd, hlist]
  · simp [hd, hlist]

/-! ### The rows of the opcode map (R95) -/

/-- The word of an instruction matches its row. -/
theorem matchesRow_encode : ∀ i : Instr, matchesRow (encode i) i = true
  | .cls => Laws.Encoding.cls
  | .ret => Laws.Encoding.ret
  | .jp nnn => Laws.Encoding.jp nnn
  | .call nnn => Laws.Encoding.call nnn
  | .seImm x kk => Laws.Encoding.seImm x kk
  | .sneImm x kk => Laws.Encoding.sneImm x kk
  | .seReg x y => Laws.Encoding.seReg x y
  | .ldImm x kk => Laws.Encoding.ldImm x kk
  | .addImm x kk => Laws.Encoding.addImm x kk
  | .ldReg x y => Laws.Encoding.ldReg x y
  | .orReg x y => Laws.Encoding.orReg x y
  | .andReg x y => Laws.Encoding.andReg x y
  | .xorReg x y => Laws.Encoding.xorReg x y
  | .addReg x y => Laws.Encoding.addReg x y
  | .subReg x y => Laws.Encoding.subReg x y
  | .shr x y => Laws.Encoding.shr x y
  | .subn x y => Laws.Encoding.subn x y
  | .shl x y => Laws.Encoding.shl x y
  | .sneReg x y => Laws.Encoding.sneReg x y
  | .ldI nnn => Laws.Encoding.ldI nnn
  | .jpV0 nnn => Laws.Encoding.jpV0 nnn
  | .rnd x kk => Laws.Encoding.rnd x kk
  | .drw x y n => Laws.Encoding.drw x y n
  | .skp x => Laws.Encoding.skp x
  | .sknp x => Laws.Encoding.sknp x
  | .ldVDt x => Laws.Encoding.ldVDt x
  | .ldVK x => Laws.Encoding.ldVK x
  | .ldDt x => Laws.Encoding.ldDt x
  | .ldSt x => Laws.Encoding.ldSt x
  | .addI x => Laws.Encoding.addI x
  | .ldF x => Laws.Encoding.ldF x
  | .ldB x => Laws.Encoding.ldB x
  | .ldMemV x => Laws.Encoding.ldMemV x
  | .ldVMem x => Laws.Encoding.ldVMem x

/-- Every instruction has its row in the table. -/
theorem exists_row (i : Instr) : ∃ r ∈ rows, rowMatch r = rowMatch i ∧ rowMask r = rowMask i := by
  cases i <;> (simp only [rowMatch, rowMask]; decide)

theorem rowMatch_injOn_rows {a b : Instr} (ha : a ∈ rows) (hb : b ∈ rows) (h : rowMatch a = rowMatch b) : a = b :=
  List.inj_on_of_nodup_map (f := rowMatch) (by decide : (rows.map rowMatch).Nodup) ha hb h

section Rows

variable {w : Word} {r : Instr}

theorem fieldOp_of_matchesRow (h : matchesRow w r = true) : fieldOp w = fieldOp (rowMatch r) := by
  have hmask : fieldOp (rowMask r) = BitVec.allOnes 4 := by cases r <;> (simp only [rowMask]; decide)
  rw [← eq_of_beq h, fieldOp_and, hmask, BitVec.and_allOnes]

theorem fieldN_of_matchesRow (h : matchesRow w r = true) (hmask : rowMask r = 0xF00F) :
    fieldN w = fieldN (rowMatch r) := by
  have hn : fieldN 0xF00F = BitVec.allOnes 4 := by decide
  rw [← eq_of_beq h, fieldN_and, hmask, hn, BitVec.and_allOnes]

theorem fieldKK_of_matchesRow (h : matchesRow w r = true) (hmask : rowMask r = 0xF0FF) :
    fieldKK w = fieldKK (rowMatch r) := by
  have hkk : fieldKK 0xF0FF = BitVec.allOnes 8 := by decide
  rw [← eq_of_beq h, fieldKK_and, hmask, hkk, BitVec.and_allOnes]

/-- A word that matches a row decodes to an instruction of the row. -/
theorem exists_decode_of_matchesRow (h : matchesRow w r = true) : ∃ i, decode w = .ok i ∧ rowMatch i = rowMatch r := by
  have hop := fieldOp_of_matchesRow h
  cases r with
  | cls | ret =>
    obtain rfl := (BitVec.and_allOnes (x := w)).symm.trans (eq_of_beq h)
    exact ⟨_, rfl, rfl⟩
  | jp | call | ldI | jpV0 | seImm | sneImm | ldImm | addImm | rnd | drw =>
    simp only [decode, hop, rowMatch]
    exact ⟨_, rfl, rfl⟩
  | seReg | sneReg | ldReg | orReg | andReg | xorReg | addReg | subReg | shr | subn | shl =>
    have hn := fieldN_of_matchesRow h rfl
    simp only [decode, decodeTrailingZero, decodeGroup8, hop, hn, rowMatch]
    exact ⟨_, rfl, rfl⟩
  | skp | sknp | ldVDt | ldVK | ldDt | ldSt | addI | ldF | ldB | ldMemV | ldVMem =>
    have hkk := fieldKK_of_matchesRow h rfl
    simp only [decode, decodeGroupE, decodeGroupF, hop, hkk, rowMatch]
    exact ⟨_, rfl, rfl⟩

/-- In the table, a word matches the row of what it decodes to. -/
theorem exists_row_of_decode {i : Instr} (h : decode w = .ok i) :
    ∃ r ∈ rows, matchesRow w r = true ∧ rowMatch r = rowMatch i := by
  obtain ⟨r, hr, hmatch, hmask⟩ := exists_row i
  refine ⟨r, hr, ?_, hmatch⟩
  rw [matchesRow, hmatch, hmask, ← decodedWordsAreTheirEncodings w i h]
  exact matchesRow_encode i

end Rows

/-- Settles O4: both rows are the row of what the word decodes to. -/
theorem opcodeRowsAreDisjoint : Obligations.OpcodeRowsAreDisjoint := by
  intro w a b ha hb hwa hwb
  obtain ⟨i, hi, hia⟩ := exists_decode_of_matchesRow hwa
  obtain ⟨j, hj, hjb⟩ := exists_decode_of_matchesRow hwb
  obtain rfl : i = j := Except.ok.inj (hi.symm.trans hj)
  exact rowMatch_injOn_rows ha hb (hia.symm.trans hjb)

theorem not_matchesRow_of_decode_error {w : Word} {e : Reject} (h : decode w = .error e) (r : Instr) :
    matchesRow w r = false := by
  refine Bool.eq_false_iff.2 fun hr => ?_
  obtain ⟨i, hi, -⟩ := exists_decode_of_matchesRow hr
  cases h.symm.trans hi

/-- Settles O3: the row of what decode accepts is the only one by O4, and no row matches what it rejects. -/
theorem decoderIsTotal : Obligations.DecoderIsTotal := by
  intro w
  obtain ⟨i, hi, -⟩ | ⟨he, -⟩ := decode_answer w
  · obtain ⟨r, hr, hw, hmatch⟩ := exists_row_of_decode hi
    have honly : ∀ r', r' ∈ rows ∧ matchesRow w r' = true → r' = r :=
      fun r' ⟨hr', hw'⟩ => opcodeRowsAreDisjoint w r' r hr' hr hw' hw
    exact .inl ⟨⟨i, hi, r, ⟨hr, hw, hmatch⟩, fun r' ⟨hr', hw', _⟩ => honly r' ⟨hr', hw'⟩⟩, r, ⟨hr, hw⟩, honly⟩
  · exact .inr ⟨he, fun r _ => not_matchesRow_of_decode_error he r⟩

theorem recognized_eq_false_iff (w : Word) : recognized w = false ↔ unrecognizedByList w := by
  obtain ⟨i, hi, -, hlist⟩ | ⟨he, hlist⟩ := decode_answer w
  · obtain ⟨r, hr, hw, -⟩ := exists_row_of_decode hi
    have hrec : recognized w = true := List.any_eq_true.2 ⟨r, hr, hw⟩
    simp [hrec, hlist]
  · have hrec : recognized w = false := List.any_eq_false.2 fun r _ => by simp [not_matchesRow_of_decode_error he r]
    simp [hrec, hlist]

/-- Settles O6: each of the words is the encoding of its instruction. -/
theorem sampleWordsDecode : Obligations.SampleWordsDecode :=
  have h := encodedInstructionsDecode
  ⟨h .cls, h .ret, h (.call 0xABC), h (.seImm 3 0x42), h (.seReg 1 2), h (.subReg 1 0xF), h (.ldI 0x123), h (.ldB 5),
    h (.ldVK 2), h (.drw 1 2 5), h (.sknp 4)⟩

end Sys2Proof

namespace Sys2Proof.Machine

open Sys2Proof.Claims

/-! ### The STEP (R101) -/

/-- An enabled STEP on a word that decode rejects only advances pc (R96). -/
theorem interpret_unrecognized {s : State} {e : Reject} (hs : StepEnabled s) (hr : s.fetchFaults = false)
    (hd : decode s.fetchWord = .error e) : interpret s = .next s.advance := by
  obtain ⟨hb, hf, hx⟩ := hs
  simp [interpret, runWord, execUnrecognized, hb, hf, hx, hr, hd]

/-- An enabled STEP whose fetch is out of range only records the fault (R302). -/
theorem interpret_fetchFaults {s : State} (hs : StepEnabled s) (hr : s.fetchFaults = true) :
    interpret s = .next (s.recordFault (.fetchOutOfRange s.pc)) := by
  obtain ⟨hb, hf, hx⟩ := hs
  simp [interpret, hb, hf, hx, hr]

theorem fetchFaults_eq_false {s : State} (h : s.pc.toNat ≤ 0xFFE) : s.fetchFaults = false :=
  (fetchFaults_eq s).trans (decide_eq_false (Nat.not_lt.2 h))

theorem fetchFaults_eq_true {s : State} (h : s.pc.toNat > 0xFFE) : s.fetchFaults = true :=
  (fetchFaults_eq s).trans (decide_eq_true h)

/-- What the operation STEP answers with every schedule, it answers with the schedule as it stands, and a transition that is
a STEP answers it with the rest of the schedule (R72). -/
theorem step_in_any_schedule {s : State} {answer : State → Result}
    (h : ∀ l, interpret { s with schedule := l } = answer { s with schedule := l }) :
    perform .step s = answer s ∧ (IsStep s → step s = answer { s with schedule := s.schedule.tail }) :=
  ⟨h s.schedule, fun hs => (step_is_interpret hs).trans (h _)⟩

/-- Settles O7: the rule of an enabled STEP on a word that decodes. -/
theorem stepRunsTheDecodedInstruction : Obligations.StepRunsTheDecodedInstruction := by
  intro s i ⟨hb, hf, hx⟩ hpc hdecode
  rw [nextWord_eq_fetchWord] at hdecode
  exact step_in_any_schedule (answer := fun s => exec i s.advance) fun _ =>
    interpret_decoded hb hf hx (fetchFaults_eq_false hpc) hdecode

/-- Settles O8: the rule of an enabled STEP whose fetch is out of range. -/
theorem fetchBeyondMemoryFaults : Obligations.FetchBeyondMemoryFaults := by
  intro s hs hpc
  exact step_in_any_schedule (answer := fun s => .next (s.recordFault (.fetchOutOfRange s.pc))) fun _ =>
    interpret_fetchFaults hs (fetchFaults_eq_true hpc)

/-- Settles O5: decode and the rows were held to the list above; the step is the rule of a word that decode rejects. -/
theorem unrecognizedWordsAreNoOps : Obligations.UnrecognizedWordsAreNoOps := by
  refine ⟨decode_eq_error_iff, recognized_eq_false_iff, fun s hs hpc hlist => ?_⟩
  have hdecode := (decode_eq_error_iff _).2 hlist
  rw [nextWord_eq_fetchWord] at hdecode
  exact step_in_any_schedule (answer := fun s => .next s.advance) fun l =>
    interpret_unrecognized (s := { s with schedule := l }) hs (fetchFaults_eq_false hpc) hdecode

end Sys2Proof.Machine
end

section
/-! PROOFS. Control transfer (spec/41_control_flow.md R120 to R123): where each jump leaves pc and when the next fetch
faults, what CALL pushes and RET pops, and that RET undoes CALL. -/

namespace Sys2Proof.Machine

open Sys2Proof.Claims

/-! ### Jump targets (R92, R121, R123) -/

theorem addrWord_toNat (nnn : Addr12) : (addrWord nnn).toNat = nnn.toNat :=
  BitVec.toNat_setWidth_of_le (by decide)

theorem byteWord_toNat (b : Byte) : (byteWord b).toNat = b.toNat :=
  BitVec.toNat_setWidth_of_le (by decide)

/-- The mask of the 12-bit writers is the remainder by 4096. -/
theorem and_addrMask_toNat (w : Word) : (w &&& addrMask).toNat = w.toNat % 4096 :=
  (BitVec.toNat_and ..).trans (Nat.and_two_pow_sub_one_eq_mod _ 12)

/-- The sum of nnn and V0 fits in 16 bits, so the mask alone wraps it. -/
theorem offsetTarget_toNat (nnn : Addr12) (b : Byte) :
    ((addrWord nnn + byteWord b) &&& addrMask).toNat = (nnn.toNat + b.toNat) % 4096 := by
  have hnnn := nnn.isLt
  have hb := b.isLt
  rw [and_addrMask_toNat, BitVec.toNat_add, addrWord_toNat, byteWord_toNat,
    Nat.mod_eq_of_lt (a := nnn.toNat + b.toNat) (by omega)]

/-- Of the 12-bit addresses, only the last cannot be fetched from (R101). -/
theorem fetchFaults_iff_of_lt {s : State} (h : s.pc.toNat < 4096) : s.fetchFaults = true ↔ s.pc.toNat = 0xFFF := by
  rw [fetchFaults_eq, decide_eq_true_iff]
  omega

/-- A jump to a 12-bit address: pc alone is written, and only the last address faults at the next fetch. -/
theorem setPc_jumps {s : State} {w : Word} {a : Nat} (hw : w.toNat = a) (ha : a < 4096) :
    Frame { pc := True } s (s.setPc w) ∧ (s.setPc w).pc.toNat = a ∧ ((s.setPc w).fetchFaults = true ↔ a = 0xFFF) := by
  subst hw
  exact ⟨(Frame.refl _ s).setPc trivial w, rfl, fetchFaults_iff_of_lt (s := s.setPc w) ha⟩

/-- Settles O12: nnn is a 12-bit address. -/
theorem jumpGoesToItsTarget : Obligations.JumpGoesToItsTarget := fun nnn _ =>
  ⟨_, rfl, setPc_jumps (addrWord_toNat nnn) nnn.isLt⟩

/-- Settles O13: the masked sum is a 12-bit address. -/
theorem offsetJumpWrapsAt12Bits : Obligations.OffsetJumpWrapsAt12Bits := fun nnn s =>
  ⟨_, rfl, setPc_jumps (offsetTarget_toNat nnn (s.getV 0)) (Nat.mod_lt _ (by decide))⟩

/-! ### CALL and RET (R120, R122) -/

/-- The entry at the new sp is the pushed word. -/
theorem State.getStack_push_self (s : State) (w : Word) (h : s.sp.val < Config.spMax) :
    (s.push w h).getStack (s.push w h).sp = w :=
  (s.getStack_push w h _).trans (if_pos rfl)

/-- CALL below sp = 15: what it pushes, where it goes, and what it writes. -/
theorem exec_call_pushes (nnn : Addr12) {s : State} (h : s.sp.val < 15) :
    ∃ t, exec (.call nnn) s = .next t
      ∧ Frame { pc := True, sp := True, stack := fun j => j = t.sp } s t
      ∧ t.sp.val = s.sp.val + 1 ∧ t.getStack t.sp = s.pc ∧ t.pc.toNat = nnn.toNat := by
  obtain ⟨hroom, hexec⟩ := exec_call_completes (nnn := nnn) (if_neg (Nat.ne_of_lt h))
  have hentry : ∀ j : StackIndex, j.val = s.sp.val + 1 → j = (s.push s.pc hroom).sp := fun _ hj => Fin.ext hj
  exact ⟨_, hexec, ((Frame.refl _ s).push trivial hentry s.pc hroom).setPc trivial _, rfl,
    s.getStack_push_self s.pc hroom, addrWord_toNat nnn⟩

/-- RET above sp = 0: pc comes from the top entry, and no entry is written. -/
theorem exec_ret_pops {s : State} (h : 0 < s.sp.val) :
    ∃ t, exec .ret s = .next t ∧ Frame { pc := True, sp := True } s t
      ∧ t.pc = s.getStack s.sp ∧ t.sp.val = s.sp.val - 1 :=
  ⟨_, exec_ret_completes (if_neg (Nat.ne_of_gt h)), ((Frame.refl _ s).pop trivial).setPc trivial _, rfl, rfl⟩

/-- Settles O14: CALL completes below sp = 15, and sp = 15 is its fault condition in the table of R301. -/
theorem callPushesItsReturnAddress : Obligations.CallPushesItsReturnAddress := fun _ _ =>
  ⟨exec_call_pushes _, fun h => exec_eq_takeFault (if_pos h)⟩

/-- Settles O15: RET completes above sp = 0, and sp = 0 is its fault condition in the table of R301. -/
theorem returnPopsTheStack : Obligations.ReturnPopsTheStack := fun _ =>
  ⟨exec_ret_pops, fun h => exec_eq_takeFault (if_pos h)⟩

/-- Settles O16: RET pops the entry CALL pushed, and CALL wrote no entry up to the old sp. -/
theorem returnUndoesCall : Obligations.ReturnUndoesCall := by
  intro nnn s h
  obtain ⟨t, hcall, htFrame, htsp, htop, -⟩ := exec_call_pushes nnn h
  obtain ⟨u, hret, huFrame, hupc, husp⟩ := exec_ret_pops (s := t) (by omega)
  refine ⟨t, u, hcall, hret, hupc.trans htop, Fin.ext (by omega), fun j hj => ?_⟩
  have hne : j ≠ t.sp := by
    rintro rfl
    omega
  exact (huFrame.getStack_eq id).trans (htFrame.getStack_eq hne)

end Sys2Proof.Machine
end

section
/-! PROOFS. Conditional skips (spec/42_skips.md R140 to R147): a skip and its opposite move pc by 2 and by 0 when the
predicate holds, the other way round when it does not, and the key comparison is the predicate of R140. -/

namespace Sys2Proof.Machine

open Sys2Proof.Claims

/-- A skip and the skip on the negated predicate make opposite choices, and write pc alone (R141). -/
theorem skipIf_opposite {P : Prop} {holds : Bool} (hP : holds = true ↔ P) (s : State) :
    ∃ t u, skipIf s holds = .next t ∧ skipIf s (!holds) = .next u
      ∧ Frame { pc := True } s t ∧ Frame { pc := True } s u
      ∧ (P → t.pc = s.pc + 2 ∧ u.pc = s.pc) ∧ (¬ P → t.pc = s.pc ∧ u.pc = s.pc + 2) := by
  have hstay := Frame.refl { pc := True } s
  have hskip := hstay.setPc trivial (s.pc + 2)
  cases holds with
  | true => exact ⟨_, _, skipIf_true s, skipIf_false s, hskip, hstay, fun _ => ⟨rfl, rfl⟩, (absurd (hP.1 rfl) ·)⟩
  | false =>
    exact ⟨_, _, skipIf_false s, skipIf_true s, hstay, hskip, fun h => absurd (hP.2 h) Bool.false_ne_true,
      fun _ => ⟨rfl, rfl⟩⟩

/-- Settles O17: the two skips compare V[x] with kk, one for equal and one for not. -/
theorem immediateSkipsCompare : Obligations.ImmediateSkipsCompare := fun _ _ s => skipIf_opposite beq_iff_eq s

/-- Settles O18: the two skips compare V[x] with V[y], one for equal and one for not. -/
theorem registerSkipsCompare : Obligations.RegisterSkipsCompare := fun _ _ s => skipIf_opposite beq_iff_eq s

theorem keyByte_toNat (k : Nibble) : (keyByte k).toNat = k.toNat :=
  BitVec.toNat_setWidth_of_le (by decide)

/-- The key is compared with all 8 bits of the register, and an empty mailbox with NO_KEY_CODE (R140). -/
theorem State.keyEq_iff (s : State) (b : Byte) : s.keyEq b = true ↔ KeyEquals s b := by
  unfold State.keyEq KeyEquals
  cases s.key with
  | none => simp
  | some k => simp [← BitVec.toNat_inj (x := keyByte k), keyByte_toNat]

/-- Settles O19: the two skips take the key comparison, which is R140's, and its negation. -/
theorem keySkipsAreOpposite : Obligations.KeySkipsAreOpposite := fun _ s => skipIf_opposite (s.keyEq_iff _) s

end Sys2Proof.Machine
end

section
/-! PROOFS. Register arithmetic and logic (spec/43_alu.md R160 to R173): an instruction without a flag writes V[x] alone,
one with a flag is WriteRF (R161), and each result and flag byte is the number its rule gives. -/

namespace Sys2Proof.Machine

open Sys2Proof.Claims

/-! ### The two kinds of write: V[x] alone, and WriteRF (R161) -/

theorem setV_frame (s : State) (x : Nibble) (b : Byte) : Frame { v := fun r => r = x } s (s.setV x b) :=
  (Frame.refl _ s).setV rfl b

theorem writeRF_frame (s : State) (x : Nibble) (r f : Byte) :
    Frame { v := fun q => q = x ∨ q = 0xF } s (writeRF s x r f) :=
  (Frame.refl _ s).writeRF (Or.inl rfl) (Or.inr rfl) r f

/-- WriteRF leaves the numbers of its result and flag bytes, in either FLAG_ORDER. -/
theorem writeRF_resultAndFlag (s : State) (x : Nibble) {r f : Byte} {m n : Nat} (hr : r.toNat = m) (hf : f.toNat = n) :
    ResultAndFlag s (writeRF s x r f) x m n := by
  subst hr hf
  constructor
  · intro hx
    constructor
    · rw [getV_writeRF, if_neg fun h => hx h.2, if_pos rfl]
    · rw [getV_writeRF, if_neg fun h => hx h.1.symm, if_neg (Ne.symm hx), if_pos rfl]
  · rintro rfl
    rw [getV_writeRF, if_pos ⟨rfl, rfl⟩, apply_ite BitVec.toNat]

/-! ### The numbers of the result and flag bytes (R160) -/

theorem flagByte_decide_toNat (p : Prop) [Decidable p] : (flagByte (decide p)).toNat = if p then 1 else 0 := by
  by_cases h : p <;> simp [flagByte, h]

theorem flagByte_carryOf_toNat (a b : Byte) : (flagByte (carryOf a b)).toNat = if a.toNat + b.toNat > 255 then 1 else 0 :=
  flagByte_decide_toNat _

theorem flagByte_noBorrow_toNat (a b : Byte) : (flagByte (noBorrow a b)).toNat = if a.toNat ≥ b.toNat then 1 else 0 :=
  flagByte_decide_toNat _

theorem byte_sub_toNat (a b : Byte) : (a - b).toNat = (256 + a.toNat - b.toNat) % 256 := by
  have hb := b.isLt
  rw [BitVec.toNat_sub]
  omega

theorem ushiftRight_one_toNat (a : Byte) : (a >>> 1).toNat = a.toNat / 2 := by
  rw [BitVec.toNat_ushiftRight, Nat.shiftRight_eq_div_pow]

theorem shiftLeft_one_toNat (a : Byte) : (a <<< 1).toNat = a.toNat * 2 % 256 := by
  rw [BitVec.toNat_shiftLeft, Nat.shiftLeft_eq]

theorem lowBit_toNat (a : Byte) : (lowBit a).toNat = a.toNat % 2 :=
  (BitVec.toNat_and ..).trans (Nat.and_one_is_mod _)

theorem highBit_toNat (a : Byte) : (highBit a).toNat = a.toNat / 128 :=
  (BitVec.toNat_ushiftRight ..).trans (Nat.shiftRight_eq_div_pow ..)

theorem shiftSource_toNat (s : State) (x y : Nibble) : (s.shiftSource x y).toNat = shiftedByte s x y :=
  apply_ite BitVec.toNat ..

/-! ### The instructions -/

/-- Settles O20: both write V[x] alone, and the sum of two bytes is taken mod 256. -/
theorem immediateLoadAndAdd : Obligations.ImmediateLoadAndAdd := by
  intro x kk s
  refine ⟨_, _, rfl, rfl, setV_frame s x _, setV_frame s x _, s.getV_setV_self x kk, ?_⟩
  rw [State.getV_setV_self, BitVec.toNat_add]

/-- Settles O21: all four write V[x] alone, and the word operations are the operations on each bit. -/
theorem copyAndBitwiseLogic : Obligations.CopyAndBitwiseLogic := by
  intro x y s
  refine ⟨_, _, _, _, rfl, rfl, rfl, rfl, setV_frame s x _, setV_frame s x _, setV_frame s x _, setV_frame s x _,
    s.getV_setV_self x _, fun j _ => ⟨?_, ?_, ?_⟩⟩
  · rw [State.getV_setV_self, BitVec.getLsbD_or]
  · rw [State.getV_setV_self, BitVec.getLsbD_and]
  · rw [State.getV_setV_self, BitVec.getLsbD_xor]

/-- Settles O22: ADD is WriteRF of the sum and its carry. -/
theorem addSetsCarry : Obligations.AddSetsCarry := fun x _ s =>
  ⟨_, rfl, writeRF_frame s x _ _, writeRF_resultAndFlag s x (BitVec.toNat_add ..) (flagByte_carryOf_toNat ..)⟩

/-- Settles O23: SUB and SUBN are WriteRF of a difference and its no-borrow bit, the operands exchanged. -/
theorem subtractSetsNoBorrow : Obligations.SubtractSetsNoBorrow := fun x _ s =>
  ⟨_, _, rfl, rfl, writeRF_frame s x _ _, writeRF_frame s x _ _,
    writeRF_resultAndFlag s x (byte_sub_toNat ..) (flagByte_noBorrow_toNat ..),
    writeRF_resultAndFlag s x (byte_sub_toNat ..) (flagByte_noBorrow_toNat ..)⟩

/-- Settles O24: SHR and SHL are WriteRF of the shifted source and the bit it loses. -/
theorem shiftsByOneWithBitOut : Obligations.ShiftsByOneWithBitOut := by
  intro x y s
  rw [← shiftSource_toNat]
  exact ⟨_, _, rfl, rfl, writeRF_frame s x _ _, writeRF_frame s x _ _,
    writeRF_resultAndFlag s x (ushiftRight_one_toNat _) (lowBit_toNat _),
    writeRF_resultAndFlag s x (shiftLeft_one_toNat _) (highBit_toNat _)⟩

/-- Settles O25: RND counts one draw and writes V[x], and a bit that kk masks out is 0 whatever was drawn. -/
theorem randomByteIsMasked : Obligations.RandomByteIsMasked := by
  intro x kk s
  have hx := s.countRandom.getV_setV_self x (Config.randomByte s.randomDraws &&& kk)
  refine ⟨_, rfl, ((Frame.refl _ s).countRandom trivial).setV rfl _, hx, rfl, fun j hj => ?_⟩
  rw [hx, BitVec.getLsbD_and, hj, Bool.and_false]

end Sys2Proof.Machine
end

section
/-! PROOFS. The index register and memory (spec/44_index_memory.md R200 to R205): what each writer of I leaves there, the
bytes Fx33 and Fx55 store, the registers Fx65 loads, and the fault of each access out of range (R67). -/

namespace Sys2Proof.Machine

open Sys2Proof.Claims

/-! ### The writers of I (R200 to R202, R204 to R206) -/

/-- The glyph address of a byte fits in 12 bits, so the mask leaves it alone (R202). -/
theorem glyphAddress_toNat (b : Byte) :
    ((byteWord b * BitVec.ofNat 16 Config.glyphLen) &&& addrMask).toNat = b.toNat * 5 := by
  have hb := b.isLt
  have hlen : (BitVec.ofNat 16 Config.glyphLen).toNat = 5 := rfl
  rw [and_addrMask_toNat, BitVec.toNat_mul, byteWord_toNat, hlen]
  omega

/-- A carry out of 16 bits is a multiple of 4096, so the mask of the sum is the unmasked sum's remainder (R201). -/
theorem indexSum_toNat (i : Word) (b : Byte) :
    ((i + byteWord b) &&& addrMask).toNat = (i.toNat + b.toNat) % 4096 := by
  rw [and_addrMask_toNat, BitVec.toNat_add, byteWord_toNat, Nat.mod_mod_of_dvd _ (by decide)]

theorem flagByte_indexOverflow_toNat (i : Word) (b : Byte) :
    (flagByte (indexOverflow i b)).toNat = if i.toNat + b.toNat > 0xFFF then 1 else 0 :=
  flagByte_decide_toNat _

/-- An access in range leaves I + x + 1 below 2^16, so the unmasked quirk increment does not wrap (R204, R205). -/
theorem State.advanceI_i_toNat {s : State} {x : Nibble} (h : s.i.toNat + x.toNat ≤ 0xFFF) :
    (s.advanceI x).i.toNat = if s.indexQuirk = true then s.i.toNat + x.toNat + 1 else s.i.toNat := by
  unfold State.advanceI
  split
  · rw [State.setI_i]
    bv_omega
  · rfl

/-- Settles O26: both write I alone, and neither address needs the mask. -/
theorem indexLoads : Obligations.IndexLoads := fun nnn x s =>
  ⟨_, _, rfl, rfl, (Frame.refl _ s).setI trivial _, (Frame.refl _ s).setI trivial _, addrWord_toNat nnn,
    glyphAddress_toNat (s.getV x)⟩

/-- Settles O27: sum and flag are both taken from the old I and V[x], so x = F is no exception. -/
theorem indexAddSetsOverflow : Obligations.IndexAddSetsOverflow := by
  intro x s
  refine ⟨_, rfl, ((Frame.refl _ s).setI trivial _).setV rfl _, indexSum_toNat s.i (s.getV x), ?_⟩
  rw [State.setVF_eq, State.getV_setV_self, flagByte_indexOverflow_toNat]

/-! ### Stores (R203, R204) -/

theorem readByte_writeBytes_getElem? {s : State} (h : cellsRising s.mem) (a : Nat) {bs : List Byte} {k : Nat} {b : Byte}
    (hk : bs[k]? = some b) : (writeBytes a bs s).readByte (a + k) = b := by
  rw [readByte_writeBytes h, if_pos (Nat.le_add_right a k), Nat.add_sub_cancel_left, hk, Option.getD_some]

/-- In range, Fx33 completes and leaves the digits at the three addresses from I on, in their order. -/
theorem exec_ldB_readByte {x : Nibble} {s : State} (hs : MemoryCanonical s) (h : s.i.toNat + 2 ≤ 0xFFF) :
    ∃ t, exec (.ldB x) s = .next t
      ∧ ∀ k b, (bcdDigits (s.getV x))[k]? = some b → t.readByte (s.i.toNat + k) = b := by
  obtain ⟨hrising, -⟩ := hs
  have hrange := inRange_of_faultOf_none (i := .ldB x) (if_neg (Nat.not_lt.2 h))
  exact ⟨_, withRange_inRange hrange, fun _ _ => readByte_writeBytes_getElem? hrising _⟩

/-- In range, Fx55 moves I past the stored bytes under index_quirk alone. -/
theorem exec_ldMemV_i_toNat {x : Nibble} {s t : State} (h : s.i.toNat + x.toNat ≤ 0xFFF)
    (ht : exec (.ldMemV x) s = .next t) :
    t.i.toNat = if s.indexQuirk = true then s.i.toNat + x.toNat + 1 else s.i.toNat := by
  have hrange := inRange_of_faultOf_none (i := .ldMemV x) (if_neg (Nat.not_lt.2 h))
  obtain rfl := Host.Outcome.next.inj ((withRange_inRange hrange).symm.trans ht)
  rw [writeBytes_eq]
  exact State.advanceI_i_toNat (s := { s with mem := _ }) h

/-- Settles O28: each digit of a byte fits in a byte, and I + 2 > 0xFFF is Fx33's fault condition in the table of R301. -/
theorem decimalDigitsAreStored : Obligations.DecimalDigitsAreStored := by
  intro x s hs
  refine ⟨fun h => ?_, fun h => exec_eq_takeFault (if_pos h)⟩
  obtain ⟨t, ht, hdigits⟩ := exec_ldB_readByte (x := x) hs h
  have hframe := instructionsKeepTheirFrame (.ldB x) s t hs ht (if_neg (Nat.not_lt.2 h))
  have hv := (s.getV x).isLt
  refine ⟨t, ht, hframe, ?_, ?_, ?_⟩
  · rw [← Nat.add_zero s.i.toNat, hdigits 0 _ rfl, BitVec.toNat_ofNat]
    omega
  · rw [hdigits 1 _ rfl, BitVec.toNat_ofNat]
    omega
  · rw [hdigits 2 _ rfl, BitVec.toNat_ofNat]
    omega

/-- Settles O29: the frame, the stored registers and the advance of Fx55, and its fault condition in the table of R301. -/
theorem registersAreStored : Obligations.RegistersAreStored := by
  intro x s hs
  refine ⟨fun h => ?_, fun h => exec_eq_takeFault (if_pos h)⟩
  obtain ⟨t, ht, hstored⟩ := exec_ldMemV_readByte hs h
  have hframe := instructionsKeepTheirFrame (.ldMemV x) s t hs ht (if_neg (Nat.not_lt.2 h))
  exact ⟨t, ht, hframe, hstored, exec_ldMemV_i_toNat h ht⟩

/-! ### Loads (R205) -/

/-- In range, Fx65 completes, writes V0 to Vx and I alone, and moves I under index_quirk alone. -/
theorem exec_ldVMem_frame {x : Nibble} {s t : State} (h : s.i.toNat + x.toNat ≤ 0xFFF)
    (ht : exec (.ldVMem x) s = .next t) :
    Frame { v := fun r => r.toNat ≤ x.toNat, i := s.indexQuirk = true } s t
      ∧ t.i.toNat = if s.indexQuirk = true then s.i.toNat + x.toNat + 1 else s.i.toNat := by
  have hrange := inRange_of_faultOf_none (i := .ldVMem x) (if_neg (Nat.not_lt.2 h))
  obtain rfl := Host.Outcome.next.inj ((withRange_inRange hrange).symm.trans ht)
  constructor
  · exact ((Frame.refl _ s).loadRegs x.isLt (fun _ => Nat.le_of_lt_succ) _).advanceI id x
  · rw [loadRegs_eq]
    exact State.advanceI_i_toNat (s := { s with v := _ }) h

/-- Settles O30: the frame, the loaded registers and the advance of Fx65, and its fault condition in the table of R301. -/
theorem registersAreLoaded : Obligations.RegistersAreLoaded := by
  intro x s
  refine ⟨fun h => ?_, fun h => exec_eq_takeFault (if_pos h)⟩
  obtain ⟨t, ht, hloaded⟩ := exec_ldVMem_getV h
  obtain ⟨hframe, hi⟩ := exec_ldVMem_frame h ht
  exact ⟨t, ht, hframe, hloaded, hi⟩

end Sys2Proof.Machine
end

section
/-! PROOFS. Timers and key input (spec/45_timers_keys.md R230 to R233): the three timer moves, what LD Vx, K does with a key
and without one, and the wait for a key as a fixed point of the step. -/

namespace Sys2Proof.Machine

open Sys2Proof.Claims

/-! ### LD Vx, K with a key and without one (R233) -/

theorem exec_ldVK_pressed (x : Nibble) {s : State} {k : Nibble} (h : s.key = some k) :
    exec (.ldVK x) s = .next (s.setV x (keyByte k)).consumeKey := by
  simp [exec, execLdVK, h]

theorem exec_ldVK_not_pressed (x : Nibble) {s : State} (h : s.key = none) :
    exec (.ldVK x) s = .next (s.setPc (s.pc - 2)) := by
  simp [exec, execLdVK, h]

@[simp] theorem State.consumeKey_getV (s : State) (r : Nibble) : s.consumeKey.getV r = s.getV r := by
  unfold State.consumeKey
  split <;> rfl

theorem State.consumeKey_key {s : State} (h : s.cfg.fx0aConsumesKey = true) : s.consumeKey.key = none :=
  congrArg State.key (if_pos h)

/-- Settles O33: with a key, V[x] alone is written before the mailbox is emptied; without one, pc alone. -/
theorem keyReadTakesOrRewinds : Obligations.KeyReadTakesOrRewinds := by
  intro x s
  constructor
  · intro k hk
    refine ⟨_, exec_ldVK_pressed x hk, ((Frame.refl _ s).setV rfl _).consumeKey id, ?_,
      State.consumeKey_key (s := s.setV x _)⟩
    rw [State.consumeKey_getV, State.getV_setV_self, keyByte_toNat]
  · intro hk
    exact ⟨_, exec_ldVK_not_pressed x hk, (Frame.refl _ s).setPc trivial _, rfl⟩

/-! ### The wait for a key (R233) -/

theorem core_run_succ {s t : State} (h : step s = .next t) (n : Nat) : core.run (n + 1) s = core.run n t := by
  have hcore : core.step s = .next t := h
  simp only [Host.Core.run, hcore]

/-- A fault-free state that steps to itself does so for ever, safely. -/
theorem run_of_step_self {s : State} (hfault : s.fault = none) (hstep : step s = .next s) (n : Nat) :
    core.run n s = .next s ∧ safeRun n s := by
  induction n with
  | zero => exact ⟨rfl, hfault⟩
  | succ n ih =>
    obtain ⟨hrun, hsafe⟩ := ih
    exact ⟨(core_run_succ hstep n).trans hrun, hfault, s, hstep, hsafe⟩

/-- The rewind of the key wait undoes the prelude of its fetch. -/
theorem exec_ldVK_advance (x : Nibble) {s : State} (h : s.key = none) : exec (.ldVK x) s.advance = .next s := by
  have hpc : s.advance.pc - 2 = s.pc := s.ia_advance
  rw [exec_ldVK_not_pressed x (s := s.advance) h, hpc]
  rfl

/-- Settles O34: the step of the wait is a fixed point. -/
theorem keyWaitSpinsUnchanged : Obligations.KeyWaitSpinsUnchanged := by
  intro x s ⟨hschedule, ⟨hbooted, hfinished, hfault⟩, hpc⟩ hdecode hkey
  rw [nextWord_eq_fetchWord] at hdecode
  refine run_of_step_self hfault ?_
  calc step s = interpret s := step_unscheduled hschedule
    _ = exec (.ldVK x) s.advance := interpret_decoded hbooted hfinished hfault (fetchFaults_eq_false hpc) hdecode
    _ = .next s := exec_ldVK_advance x hkey

/-! ### The timer moves (R230 to R232) -/

/-- Settles O32: each writes its one destination with its source unchanged. -/
theorem timerMoves : Obligations.TimerMoves := fun x s =>
  ⟨_, _, _, rfl, rfl, rfl, setV_frame s x _, (Frame.refl _ s).setDt trivial _, (Frame.refl _ s).setSt trivial _,
    s.getV_setV_self x _, rfl, rfl⟩

end Sys2Proof.Machine
end

section
/-! PROOFS. The framebuffer (spec/46_display.md R252 to R256): what a Dxyn in range does to the cells and to VF, why the same
Dxyn again takes it back, and CLS and the observed display. -/

namespace Sys2Proof.Machine

open Sys2Proof.Claims

/-! ### Flipped cells -/

@[simp] theorem otherPixel_otherPixel (p : Pixel) : otherPixel (otherPixel p) = p := by
  cases p <;> rfl

theorem otherPixel_eq_on_iff {p : Pixel} : otherPixel p = .on ↔ p = .off := by
  cases p <;> decide

/-! ### A Dxyn in range (R254) -/

/-- A set bit of the `n`-row sprite at I, drawn from origin (x0, y0), addresses a cell that holds `p`. -/
def State.spriteMeets (s : State) (x0 y0 n : Nat) (p : Pixel) : Prop :=
  ∃ row col, s.spriteCovers x0 y0 n row col ∧ Display.get s.display row col = p

open Classical in
/-- Everything a Dxyn in range does: the covered cells are flipped, VF is the collision, and nothing else is written. -/
theorem exec_drw_inRange (x y : Nibble) {n : Nibble} {s : State} (h : n.toNat = 0 ∨ s.i.toNat + n.toNat - 1 ≤ 0xFFF) :
    ∃ t, exec (.drw x y n) s = .next t ∧ Frame { v := fun r => r = 0xF, display := True } s t
      ∧ (∀ row col, Display.get t.display row col =
          if s.spriteCovers (s.getV x).toNat (s.getV y).toNat n.toNat row col
          then otherPixel (Display.get s.display row col) else Display.get s.display row col)
      ∧ t.getV 0xF = if s.spriteMeets (s.getV x).toNat (s.getV y).toNat n.toNat .on then 1 else 0 := by
  have hrange : s.rangeFaults n.toNat = false := State.rangeFaults_eq_false.2 (by omega)
  obtain ⟨hcells, hhit⟩ := drawSprite_spec s (s.getV x).toNat (s.getV y).toNat n.toNat (by have := n.isLt; omega)
  refine ⟨_, withRange_inRange hrange, ((Frame.refl _ s).setDisplay trivial _).setV rfl _, hcells, ?_⟩
  rw [State.setVF_eq, State.getV_setV_self, flagByte]
  exact if_congr hhit rfl rfl

/-- Settles O36: the cells and VF of a Dxyn in range, and its fault condition in the table of R301. -/
theorem drawFlipsCoveredCells : Obligations.DrawFlipsCoveredCells := by
  intro x y n s
  refine ⟨fun h => ?_, fun hpos hout => exec_eq_takeFault (if_pos ⟨hpos, hout⟩)⟩
  obtain ⟨t, ht, hframe, hcells, hflag⟩ := exec_drw_inRange x y h
  exact ⟨t, ht, hframe, fun row col => ⟨fun hc => (hcells row col).trans (if_pos hc),
    fun hc => (hcells row col).trans (if_neg hc)⟩, fun hon => hflag.trans (if_pos hon),
    fun hon => hflag.trans (if_neg hon)⟩

/-! ### The same Dxyn again (R256) -/

/-- Where I and memory are kept, a sprite covers the same cells. -/
theorem Frame.spriteCovers_eq {w : Writes} {s t : State} (h : Frame w s t) (hi : ¬ w.i) (hmem : ∀ a, ¬ w.mem a) :
    t.spriteCovers = s.spriteCovers := by
  have hbytes : ∀ a, t.readByte a = s.readByte a := by
    obtain ⟨-, -, -, -, -, -, -, hread, -⟩ := h
    exact fun a => hread a (hmem a)
  funext x0 y0 n row col
  simp only [State.spriteCovers, h.i_eq hi, hbytes]

open Classical in
/-- Where every covered cell has been flipped, the sprite meets an "on" cell exactly where it met an "off" one. -/
theorem spriteMeets_on_iff_off {s t : State} {x0 y0 n : Nat} (hcovers : t.spriteCovers = s.spriteCovers)
    (hcells : ∀ row col, Display.get t.display row col =
      if s.spriteCovers x0 y0 n row col then otherPixel (Display.get s.display row col)
      else Display.get s.display row col) :
    t.spriteMeets x0 y0 n .on ↔ s.spriteMeets x0 y0 n .off := by
  unfold State.spriteMeets
  rw [hcovers]
  refine exists₂_congr fun row col => and_congr_right fun hc => ?_
  rw [hcells, if_pos hc, otherPixel_eq_on_iff]

/-- Settles O37: the first drawing leaves the sprite and its origin alone, so the second flips the same cells back. -/
theorem drawingTwiceRestores : Obligations.DrawingTwiceRestores := by
  classical
  intro x y n s t hrange hst hx hy
  obtain ⟨t', ht', hframe, hcells, -⟩ := exec_drw_inRange x y hrange
  obtain rfl : t' = t := Host.Outcome.next.inj (ht'.symm.trans hst)
  have hcovers : t'.spriteCovers = s.spriteCovers := hframe.spriteCovers_eq id fun _ => id
  obtain ⟨u, hu, -, hback, hflag⟩ := exec_drw_inRange x y (n := n) (s := t') (by rwa [hframe.i_eq id])
  rw [hx, hy] at hflag
  simp only [hx, hy, hcovers] at hback
  refine ⟨u, hu, fun row col => ?_, ?_⟩
  · rw [hback, hcells]
    split
    · exact otherPixel_otherPixel _
    · rfl
  · rw [hflag, Ne.ite_eq_left_iff (by decide)]
    exact spriteMeets_on_iff_off hcovers hcells

/-! ### OBSERVE and CLS (R252, R253) -/

theorem observe_display_length (s : State) : s.observe.display.length = 2048 := by
  simp [State.observe, List.length_flatten, Function.comp_def, Config.displayH, Config.displayW]

/-- Settles O52: 32 rows of 64 words, and the word at each place of the row-major order. -/
theorem observedDisplayIsRowMajor : Obligations.ObservedDisplayIsRowMajor := fun s =>
  ⟨observe_display_length s, fun row col => observe_display_getElem? s row col⟩

/-- Settles O35: CLS replaces the display, and nothing else, by the clear one. -/
theorem clearTurnsEveryCellOff : Obligations.ClearTurnsEveryCellOff := fun s =>
  ⟨_, rfl, (Frame.refl _ s).setDisplay trivial _, Display.get_clear⟩

end Sys2Proof.Machine
end

section
/-! PROOFS. The audio ring buffer, the timer driver, faults and refusals (spec/60_exceptions.md R301 to R337): what a
Generate and a PULL leave in each field and at each offset, with the law of the cursors (R331) and the two sticky bits;
then when an operation faults or is refused, and what the operations do not read. -/

namespace Sys2Proof.Machine

open Sys2Proof.Claims

/-! ### Generate, field by field (R322, R323) -/

section Generate

variable (p : Params) (play : Bool) (k : Nat) (a : Audio)

@[simp] theorem Audio.generate_length :
    (a.generate p play k).length = min p.cap (a.length + k * p.frameBytes) := rfl

@[simp] theorem Audio.generate_runningSampleIndex :
    (a.generate p play k).runningSampleIndex = a.runningSampleIndex + k :=
  putFrames_index p play k a

@[simp] theorem Audio.generate_playCursor : (a.generate p play k).playCursor = a.playCursor := by
  obtain ⟨hplay, -⟩ := putFrames_rest p play k a
  exact hplay

@[simp] theorem Audio.generate_underrun : (a.generate p play k).underrun = a.underrun := by
  obtain ⟨-, -, -, hunder⟩ := putFrames_rest p play k a
  exact hunder

theorem Audio.generate_overrun_eq_true :
    (a.generate p play k).overrun = true ↔ a.overrun = true ∨ a.length + k * p.frameBytes > p.cap := by
  simp [Audio.generate]

theorem Audio.generate_overrun_of_room (h : a.length + k * p.frameBytes ≤ p.cap) :
    (a.generate p play k).overrun = a.overrun := by
  simp [Audio.generate, h]

theorem Audio.generate_writeCursor (h : a.writeCursor < p.cap) :
    (a.generate p play k).writeCursor = (a.writeCursor + k * p.frameBytes) % p.cap := by
  rw [Audio.generate, putFrames_eq, ← waveFrames_length p play a.runningSampleIndex k]
  exact putBytes_writeCursor p _ a h

/-- A Generate lists in data what writing the bytes of its frames lists there. -/
theorem Audio.byteAt_generate (j : Nat) :
    (a.generate p play k).byteAt j =
      ((waveFrames p play a.runningSampleIndex k).foldl (Audio.putByte p) a).byteAt j := by
  rw [Audio.generate, putFrames_eq]
  rfl

variable {p} {k} {a}

/-- A byte of the frames that no later one overwrites lies where write_cursor put it. -/
theorem Audio.byteAt_generate_written (hw : a.writeCursor < p.cap) {q : Nat} (hq : q < k * p.frameBytes)
    (hlast : k * p.frameBytes ≤ q + p.cap) :
    (a.generate p play k).byteAt ((a.writeCursor + q) % p.cap)
      = (waveFrames p play a.runningSampleIndex k).getD q 0 := by
  obtain ⟨hwritten, -⟩ := byteAt_putBytes p (waveFrames p play a.runningSampleIndex k) a hw
    ((a.writeCursor + q) % p.cap)
  rw [waveFrames_length] at hwritten
  exact (a.byteAt_generate p play k _).trans (hwritten q hq hlast rfl)

/-- An offset that none of the frames' bytes is written to is as before. -/
theorem Audio.byteAt_generate_elsewhere (hw : a.writeCursor < p.cap) {j : Nat}
    (hj : ∀ q, q < k * p.frameBytes → j ≠ (a.writeCursor + q) % p.cap) :
    (a.generate p play k).byteAt j = a.byteAt j := by
  obtain ⟨-, helsewhere⟩ := byteAt_putBytes p (waveFrames p play a.runningSampleIndex k) a hw j
  rw [waveFrames_length] at helsewhere
  exact (a.byteAt_generate p play k j).trans (helsewhere hj)

end Generate

/-! ### The law of the cursors (R331) -/

/-- While neither sticky bit is set, write_cursor is `length` bytes past play_cursor, wrapping: CursorsAgree of the
audio state alone. -/
def Audio.CursorsAgree (p : Params) (a : Audio) : Prop :=
  a.overrun = false → a.underrun = false → a.writeCursor = (a.playCursor + a.length) % p.cap

theorem cursorsAgree_iff {s : State} :
    CursorsAgree s ↔ (s.cfg.audioWellFormed = true → s.audio.CursorsAgree s.cfg) := Iff.rfl

/-- A Generate that leaves the overrun bit clear had room, and moves write_cursor and length by the same bytes. -/
theorem Audio.CursorsAgree.generate {p : Params} {a : Audio} (h : a.CursorsAgree p) (hw : a.writeCursor < p.cap)
    (play : Bool) (k : Nat) : (a.generate p play k).CursorsAgree p := by
  intro hover hunder
  rw [← Bool.not_eq_true, Audio.generate_overrun_eq_true, not_or, Bool.not_eq_true, Nat.not_lt] at hover
  obtain ⟨hover, hroom⟩ := hover
  rw [Audio.generate_underrun] at hunder
  calc (a.generate p play k).writeCursor
      = ((a.playCursor + a.length) % p.cap + k * p.frameBytes) % p.cap := by
        rw [Audio.generate_writeCursor p play k a hw, h hover hunder]
    _ = (a.playCursor + (a.length + k * p.frameBytes)) % p.cap := by rw [Nat.mod_add_mod, Nat.add_assoc]
    _ = _ := by rw [Audio.generate_playCursor, Audio.generate_length, Nat.min_eq_right hroom]

/-- A PULL that leaves the underrun bit clear moves play_cursor by the bytes it takes from length. -/
theorem Audio.CursorsAgree.pulled {p : Params} {a : Audio} (h : a.CursorsAgree p) (req : Nat) :
    (a.pulled p req).CursorsAgree p := by
  intro hover hunder
  obtain ⟨hunder, hreq⟩ : a.underrun = false ∧ req ≤ a.length := by simpa [Audio.pulled] using hunder
  calc a.writeCursor = (a.playCursor + a.length) % p.cap := h hover hunder
    _ = (a.playCursor + req + (a.length - req)) % p.cap := by rw [Nat.add_assoc, Nat.add_sub_cancel' hreq]
    _ = ((a.playCursor + req) % p.cap + (a.length - req)) % p.cap := (Nat.mod_add_mod ..).symm

theorem cursorsAgree_of_eq {s t : State} (hc : t.cfg = s.cfg) (ha : t.audio = s.audio) (hs : CursorsAgree s) :
    CursorsAgree t := by
  rw [cursorsAgree_iff, hc, ha]
  exact cursorsAgree_iff.1 hs

theorem interpret_cursorsAgree {s t : State} (hs : CursorsAgree s) (h : interpret s = .next t) : CursorsAgree t :=
  have hu := interpret_unwritten h
  cursorsAgree_of_eq (congrArg Unwritten.cfg hu) (congrArg Unwritten.audio hu) hs

theorem execTick_cursorsAgree {k : Nat} {s t : State} (hr : AudioInRange s) (hs : CursorsAgree s)
    (h : execTick k s = .next t) : CursorsAgree t := by
  have hcfg := (execTick_persists h).cfg
  obtain ⟨-, -, ⟨-, ha⟩ | ⟨-, -, ha⟩⟩ := execTick_cases h
  · exact cursorsAgree_of_eq hcfg ha hs
  · rw [cursorsAgree_iff, hcfg, ha]
    exact fun hwf => (cursorsAgree_iff.1 hs hwf).generate (audioInRange_iff.1 hr hwf).writeCursor _ _

theorem execPull_cursorsAgree {req : Nat} {s t : State} (hs : CursorsAgree s) (h : execPull req s = .next t) :
    CursorsAgree t := by
  obtain ⟨-, -, -, rfl⟩ := execPull_cases h
  exact cursorsAgree_iff.2 fun hwf => (cursorsAgree_iff.1 hs hwf).pulled req

/-- Settles O57: only TICK and PULL write the audio state; the agreement is carried together with the audio ranges. -/
theorem cursorsStayInAgreement : Obligations.CursorsStayInAgreement := by
  intro s t hr hs h
  have hboth : AudioInRange t ∧ CursorsAgree t := step_keeps (Inv := fun s => AudioInRange s ∧ CursorsAgree s)
    (hschedule := fun _ _ hs => hs)
    (hstep := fun _ _ ⟨hr, hs⟩ h => ⟨interpret_audioInRange hr h, interpret_cursorsAgree hs h⟩)
    (htick := fun _ _ _ ⟨hr, hs⟩ h => ⟨execTick_audioInRange hr h, execTick_cursorsAgree hr hs h⟩)
    (hpull := fun _ _ _ ⟨hr, hs⟩ h => ⟨execPull_audioInRange hr h, execPull_cursorsAgree hs h⟩)
    (hkey := fun _ _ hs => hs)
    (hquirks := fun _ _ _ hs => hs)
    (hboot := fun _ _ hs => hs)
    (hfinish := fun _ hs => hs) ⟨hr, hs⟩ h
  exact hboth.2

/-! ### Generate as the producer of the queue (R321, R322, R323) -/

/-- Offsets less than CAP apart are distinct, wherever they are counted from. -/
theorem add_mod_ne_add_mod {c x i j : Nat} (hij : i < j) (hj : j < c) : (x + i) % c ≠ (x + j) % c := by
  intro h
  have hmod : i % c = j % c := Nat.ModEq.add_left_cancel' x h
  rw [Nat.mod_eq_of_lt (hij.trans hj), Nat.mod_eq_of_lt hj] at hmod
  omega

/-- With room for them, the frames follow the pending bytes: their offsets are the next ones. -/
theorem Audio.pending_generate {p : Params} {a : Audio} (play : Bool) {k : Nat} (hcap : 0 < p.cap)
    (hagree : a.writeCursor = (a.playCursor + a.length) % p.cap) (hroom : a.length + k * p.frameBytes ≤ p.cap) :
    (a.generate p play k).pending p = a.pending p ++ waveFrames p play a.runningSampleIndex k := by
  have hw : a.writeCursor < p.cap := hagree ▸ Nat.mod_lt _ hcap
  have hoffset (q : Nat) : (a.writeCursor + q) % p.cap = (a.playCursor + (a.length + q)) % p.cap := by
    rw [hagree, Nat.mod_add_mod, Nat.add_assoc]
  have hold : ∀ j ∈ List.range a.length, (a.generate p play k).byteAt ((a.playCursor + j) % p.cap)
      = a.byteAt ((a.playCursor + j) % p.cap) := by
    intro j hj
    have hj := List.mem_range.1 hj
    refine Audio.byteAt_generate_elsewhere play hw fun q hq => ?_
    rw [hoffset]
    exact add_mod_ne_add_mod (by omega) (by omega)
  have hnew : (List.range (k * p.frameBytes)).map
        (fun q => (a.generate p play k).byteAt ((a.playCursor + (a.length + q)) % p.cap))
      = waveFrames p play a.runningSampleIndex k := by
    refine List.ext_getElem (by simp [waveFrames_length]) fun q hq hq' => ?_
    rw [waveFrames_length] at hq'
    rw [List.getElem_map, List.getElem_range, ← hoffset, Audio.byteAt_generate_written play hw hq' (by omega),
      List.getD_eq_getElem]
  rw [Audio.pending, Audio.generate_length, Audio.generate_playCursor, Nat.min_eq_right hroom, List.range_add,
    List.map_append, List.map_map, List.map_congr_left hold]
  exact congrArg (a.pending p ++ ·) hnew

/-- Settles O45: the frames are appended at write_cursor, which is the end of the pending bytes. -/
theorem generateAppendsFrames : Obligations.GenerateAppendsFrames := by
  intro s play k hwf hagree hroom
  exact ⟨Audio.pending_generate play (cap_pos_of_audioWellFormed hwf) hagree hroom,
    Audio.generate_runningSampleIndex .., Audio.generate_overrun_of_room _ _ _ _ hroom⟩

/-- Settles O46: each field after a Generate, and data at the offsets it writes and at the others. -/
theorem overrunIsRecorded : Obligations.OverrunIsRecorded := by
  intro s play k _ hw
  exact ⟨Audio.generate_overrun_eq_true .., Audio.generate_length .., Audio.generate_writeCursor _ _ _ _ hw,
    Audio.generate_playCursor .., fun _ => Audio.byteAt_generate_written play hw,
    fun _ => Audio.byteAt_generate_elsewhere play hw⟩

/-! ### PULL as the consumer of the queue (R326, R327) -/

theorem Audio.length_pending (p : Params) (a : Audio) : (a.pending p).length = a.length := by
  simp [Audio.pending]

/-- The copy of a PULL of up to CAP bytes agrees with the pending bytes as far as both go. -/
theorem Audio.take_copyOut {p : Params} {a : Audio} {req : Nat} (h : a.InRange p) (hr : req ≤ p.cap) :
    (a.copyOut p req).take a.length = (a.pending p).take req := by
  rw [copyOut_eq p a req h.playCursor hr, Audio.pending, ← List.map_take, ← List.map_take, List.take_range,
    List.take_range, Nat.min_comm]

/-- A PULL returns the pending bytes first, and a free byte for each byte past them. -/
theorem State.pullBytes_eq {s : State} {req : Nat} (h : s.audio.InRange s.cfg) (hr : req ≤ s.cfg.cap) :
    s.pullBytes req = (s.audio.pending s.cfg).take req
      ++ (List.range (req - s.audio.length)).map (fun j => Config.underrunByte (s.underrunDraws + j)) := by
  rw [State.pullBytes, Audio.take_copyOut h hr]

/-- What a PULL leaves pending are the bytes past those it takes, in order. -/
theorem Audio.pending_pulled (p : Params) (a : Audio) (req : Nat) :
    (a.pulled p req).pending p = (a.pending p).drop req := by
  refine List.ext_getElem (by simp [Audio.pending, Audio.pulled]) fun j _ _ => ?_
  simp only [Audio.pending, List.getElem_map, List.getElem_range, List.getElem_drop]
  show a.byteAt (((a.playCursor + req) % p.cap + j) % p.cap) = _
  rw [Nat.mod_add_mod, Nat.add_assoc]

/-- An enabled PULL of up to CAP bytes takes them. -/
theorem execPull_takes {req : Nat} {s : State} (ha : s.cfg.audioAvailable = true)
    (hwf : s.cfg.audioWellFormed = true) (hr : req ≤ s.cfg.cap) :
    execPull req s = .next { s with
      audio := s.audio.pulled s.cfg req
      underrunDraws := s.underrunDraws + (req - s.audio.length) } := by
  simp [execPull, ha, hwf, hr]

/-- A PULL of pending bytes leaves the sticky bit. -/
theorem Audio.pulled_of_le {p : Params} {a : Audio} {req : Nat} (h : req ≤ a.length) :
    a.pulled p req = { a with playCursor := (a.playCursor + req) % p.cap, length := a.length - req } := by
  simp [Audio.pulled, h]

/-- A PULL past the pending bytes sets the sticky bit and leaves none pending. -/
theorem Audio.pulled_of_lt {p : Params} {a : Audio} {req : Nat} (h : a.length < req) :
    a.pulled p req =
      { a with playCursor := (a.playCursor + req) % p.cap, length := 0, underrun := true } := by
  simp [Audio.pulled, h, Nat.sub_eq_zero_of_le h.le]

/-- Settles O47: the copy is the oldest of the pending bytes, and no free byte is drawn. -/
theorem pullTakesTheOldestBytes : Obligations.PullTakesTheOldestBytes := by
  intro s req ha hwf hrange hreq
  have hin := audioInRange_iff.1 hrange hwf
  have hcap : req ≤ s.cfg.cap := hreq.trans hin.length
  refine ⟨_, execPull_takes ha hwf hcap, ?_, Audio.pending_pulled .., rfl, ?_⟩
  · rw [State.pullBytes_eq hin hcap, Nat.sub_eq_zero_of_le hreq, List.range_zero, List.map_nil, List.append_nil]
  · rw [Audio.pulled_of_le hreq, Nat.sub_eq_zero_of_le hreq, Nat.add_zero]

/-- Settles O48: the copy holds all the pending bytes, and free bytes make up the rest. -/
theorem underrunIsRecorded : Obligations.UnderrunIsRecorded := by
  intro s req ha hwf hrange hreq hcap
  have hbytes := State.pullBytes_eq (audioInRange_iff.1 hrange hwf) hcap
  have hlen := Audio.length_pending s.cfg s.audio
  rw [List.take_of_length_le (by omega)] at hbytes
  refine ⟨_, execPull_takes ha hwf hcap, ?_, ?_, Audio.pulled_of_lt hreq, rfl⟩
  · rw [hbytes, List.length_append, List.length_map, List.length_range, hlen, Nat.add_sub_cancel' hreq.le]
  · rw [hbytes, List.take_left' hlen]

/-! ### The timer driver (R310) -/

theorem tickPlays_before {p : Params} (st : Byte) (h : p.toneSamplePoint = .beforeDecrement) :
    tickPlays p st = true ↔ st.toNat ≠ 0 := by
  simp [tickPlays, h, ← BitVec.toNat_inj]

theorem tickPlays_after {p : Params} (st : Byte) (h : p.toneSamplePoint = .afterDecrement) :
    tickPlays p st = true ↔ st.toNat - 1 ≠ 0 := by
  rw [← timerDown_toNat]
  simp [tickPlays, h, ← BitVec.toNat_inj]

theorem execTick_notBooted (k : Nat) {s : State} (h : s.booted = false) : execTick k s = .refused .notBooted := by
  simp [execTick, h]

/-- A tick of a booted machine, with the device and a configuration that is not refused, or without the device. -/
theorem execTick_booted (k : Nat) {s : State} (hb : s.booted = true)
    (hok : s.cfg.audioAvailable = true → ¬ BadAudio s.cfg) :
    execTick k s = .next { s with
      dt := timerDown s.dt
      st := timerDown s.st
      audio := if s.cfg.audioAvailable then s.audio.generate s.cfg (tickPlays s.cfg s.st) k else s.audio } := by
  cases ha : s.cfg.audioAvailable with
  | true => simp [execTick, hb, ha, (audioWellFormed_iff _).2 (hok ha)]
  | false => simp [execTick, hb, ha]

/-- Settles O44: the tick of a booted machine, its two timers and its sample point. -/
theorem tickCountsDownAndGenerates : Obligations.TickCountsDownAndGenerates := by
  intro k s
  refine ⟨fun hb hok => ?_, execTick_notBooted k⟩
  exact ⟨_, tickPlays s.cfg s.st, execTick_booted k hb hok, rfl, timerDown_toNat s.dt, timerDown_toNat s.st,
    tickPlays_before s.st, tickPlays_after s.st, fun ha => if_pos ha, fun ha => if_neg (Bool.eq_false_iff.1 ha)⟩

/-! ### Refusals (R304, R320, R326, R328, R337) -/

theorem audioWellFormed_eq_false_iff (p : Params) : p.audioWellFormed = false ↔ BadAudio p := by
  rw [← Bool.not_eq_true, audioWellFormed_iff, not_not]

theorem execPull_unavailable (req : Nat) {s : State} (h : s.cfg.audioAvailable = false) :
    execPull req s = .refused .audioUnavailable := by
  simp [execPull, h]

theorem execPull_badAudio (req : Nat) {s : State} (ha : s.cfg.audioAvailable = true) (h : BadAudio s.cfg) :
    execPull req s = .refused .badAudioConfig := by
  simp [execPull, ha, (audioWellFormed_eq_false_iff _).2 h]

theorem execPull_tooLarge {req : Nat} {s : State} (ha : s.cfg.audioAvailable = true) (h : ¬ BadAudio s.cfg)
    (hr : req > s.cfg.cap) : execPull req s = .refused (.pullTooLarge req) := by
  simp [execPull, ha, (audioWellFormed_iff _).2 h, hr]

theorem execTick_badAudio (k : Nat) {s : State} (hb : s.booted = true) (ha : s.cfg.audioAvailable = true)
    (h : BadAudio s.cfg) : execTick k s = .refused .badAudioConfig := by
  simp [execTick, hb, ha, (audioWellFormed_eq_false_iff _).2 h]

theorem construct_badAudio {p : Params} (h : BadAudio p) : construct p = .refused .badAudioConfig :=
  if_neg fun hwf => (audioWellFormed_iff p).1 hwf h

theorem construct_wellFormed {p : Params} (h : ¬ BadAudio p) : construct p = .next (State.constructed p) :=
  if_pos ((audioWellFormed_iff p).2 h)

/-- Settles O49: one rule for each refusal, and construction otherwise. -/
theorem pullIsRefused : Obligations.PullIsRefused :=
  ⟨fun _ req => ⟨execPull_unavailable req, execPull_badAudio req, execPull_tooLarge⟩,
    fun _ k => execTick_badAudio k, fun _ => ⟨construct_badAudio, construct_wellFormed⟩⟩

theorem interpret_notBooted {s : State} (h : s.booted = false) : interpret s = .refused .notBooted := by
  simp [interpret, h]

theorem interpret_finished {s : State} (hb : s.booted = true) (h : s.finished = true) :
    interpret s = .refused .finished := by
  simp [interpret, hb, h]

theorem interpret_faulted {s : State} {f : Fault} (hb : s.booted = true) (hf : s.finished = false)
    (h : s.fault = some f) : interpret s = .fault f := by
  simp [interpret, hb, hf, h]

/-- Settles O9: none of the three answers depends on the schedule. -/
theorem stepNeedsAnEnabledInterpreter : Obligations.StepNeedsAnEnabledInterpreter := by
  intro s
  refine ⟨fun hb => ?_, fun hb hf => ?_, fun f hb hf hx => ?_⟩
  · exact step_in_any_schedule (answer := fun _ => .refused .notBooted) fun _ => interpret_notBooted hb
  · exact step_in_any_schedule (answer := fun _ => .refused .finished) fun _ => interpret_finished hb hf
  · exact step_in_any_schedule (answer := fun _ => .fault f) fun _ => interpret_faulted hb hf hx

/-! ### Faults (R301, R302) -/

theorem Frame.fault_eq {w : Writes} {s t : State} (h : Frame w s t) : t.fault = s.fault := by
  obtain ⟨-, -, -, -, -, -, -, -, -, -, -, -, -, -, -, hfault, -⟩ := h
  exact hfault

/-- Settles O38: under its condition an instruction takes its fault, and otherwise it completes, with a frame that
leaves the record. -/
theorem onlyTheListedConditionsFault : Obligations.OnlyTheListedConditionsFault := by
  intro i s hs
  cases hf : faultOf i s with
  | some f => exact ⟨faulted s f, exec_eq_takeFault hf, rfl, fun g hg => Option.some.inj hg ▸ rfl⟩
  | none =>
    obtain ⟨t, ht, hframe, -⟩ := exec_completes hf
    exact ⟨t, ht, hframe.fault_eq.trans hs, nofun⟩

/-- A STEP that answers a fault has only recorded it: the prelude of a faulting instruction is undone. -/
theorem interpret_fault_precise {s t : State} {f : Fault} (ht : t.fault = some f) (h : interpret s = .next t) :
    t = { s with fault := some f } := by
  obtain ⟨-, -, hs, ⟨-, rfl⟩ | ⟨-, i, -, hexec⟩ | ⟨-, -, rfl⟩⟩ := interpret_cases h
  · exact congrArg (fun g => { s with fault := g }) ht
  · obtain ⟨u, hu, hfault, hprecise⟩ := onlyTheListedConditionsFault i s.advance hs
    obtain rfl : u = t := Host.Outcome.next.inj (hu.symm.trans hexec)
    have hpc : s.advance.pc - 2 = s.pc := s.ia_advance
    rw [hprecise f (hfault.symm.trans ht), faulted, hpc]
    rfl
  · exact absurd (hs.symm.trans ht) nofun

/-- No operation but a STEP writes the fault record, BOOT included (R302). -/
theorem perform_fault_eq {op : HostOp} {s t : State} (hop : op ≠ .step) (h : perform op s = .next t) :
    t.fault = s.fault := by
  cases op with
  | step => exact absurd rfl hop
  | tick k =>
    obtain ⟨-, ht, -⟩ := execTick_cases h
    rw [ht]
  | pull req =>
    obtain ⟨-, -, -, rfl⟩ := execPull_cases h
    rfl
  | setKey | setQuirks | boot | observe | finish => exact Host.Outcome.next.inj h ▸ rfl

/-- Every transition is a STEP on the rest of the schedule, or another operation scheduled first. -/
theorem step_cases {s t : State} (h : step s = .next t) :
    (IsStep s ∧ interpret { s with schedule := s.schedule.tail } = .next t)
      ∨ ∃ op rest, s.schedule = op :: rest ∧ op ≠ .step ∧ perform op { s with schedule := rest } = .next t := by
  by_cases hstep : IsStep s
  · exact .inl ⟨hstep, step_is_interpret hstep ▸ h⟩
  · cases hl : s.schedule with
    | nil => exact absurd (.inl hl) hstep
    | cons op rest =>
      exact .inr ⟨op, rest, rfl, fun hop => hstep (.inr (by rw [hl, hop]; rfl)), step_scheduled hl ▸ h⟩

/-- Settles O41: only a STEP writes the record, and it writes nothing else with it. -/
theorem faultsArePrecise : Obligations.FaultsArePrecise := by
  intro s t f hs ht
  refine ⟨interpret_fault_precise ht, fun h => ?_⟩
  obtain ⟨hstep, h⟩ | ⟨op, rest, -, hop, h⟩ := step_cases h
  · exact ⟨hstep, interpret_fault_precise ht h⟩
  · have hnone : t.fault = none := (perform_fault_eq hop h).trans hs
    exact absurd (ht.symm.trans hnone) nofun

/-- Settles O42: a STEP has a next state only where no fault is recorded, and no other operation writes the record. -/
theorem faultsAreSticky : Obligations.FaultsAreSticky := by
  intro s t f hs h
  obtain ⟨-, h⟩ | ⟨op, rest, hl, hop, h⟩ := step_cases h
  · obtain ⟨-, -, hnone, -⟩ := interpret_cases h
    exact absurd (hs.symm.trans hnone) nofun
  · exact ⟨(perform_fault_eq hop h).trans hs, by simp [hl], by simpa [hl] using hop⟩

/-! ### What a meaning does not read (R329, R337) -/

/-- The answer with `g` applied to its state, where it is a next state. A meaning `m` neither reads nor writes what `g`
replaces when `m (g s) = mapNext g (m s)`. -/
def mapNext (g : State → State) : Result → Result
  | .next s => .next (g s)
  | .fault f => .fault f
  | .refused r => .refused r

section MapNext

variable (g : State → State)

@[simp] theorem mapNext_next (s : State) : mapNext g (.next s) = .next (g s) := rfl
@[simp] theorem mapNext_refused (r : Refusal) : mapNext g (.refused r) = .refused r := rfl

@[simp] theorem mapNext_ite (c : Prop) [Decidable c] (r r' : Result) :
    mapNext g (if c then r else r') = if c then mapNext g r else mapNext g r' :=
  apply_ite (mapNext g) c r r'

end MapNext

/-- The state with another audio state. -/
def State.withAudio (s : State) (a : Audio) : State := { s with audio := a }

section WithAudio

variable (s : State) (a : Audio)

theorem writeRF_withAudio (x : Nibble) (r f : Byte) :
    writeRF (s.withAudio a) x r f = (writeRF s x r f).withAudio a := by
  have hcfg : (s.withAudio a).cfg = s.cfg := rfl
  unfold writeRF
  rw [hcfg]
  cases s.cfg.flagOrder <;> rfl

theorem writeBytes_withAudio (b : Nat) (bs : List Byte) :
    writeBytes b bs (s.withAudio a) = (writeBytes b bs s).withAudio a := by
  induction bs generalizing s b with
  | nil => rfl
  | cons c bs ih => exact ih (s.writeByte b c) (b + 1)

theorem loadRegs_withAudio (base n : Nat) : loadRegs base n (s.withAudio a) = (loadRegs base n s).withAudio a := by
  induction n with
  | zero => rfl
  | succ n ih =>
    rw [loadRegs, ih, loadRegs]
    rfl

theorem advanceI_withAudio (x : Nibble) : (s.withAudio a).advanceI x = (s.advanceI x).withAudio a := by
  rw [State.advanceI, State.advanceI, apply_ite (State.withAudio · a)]
  rfl

theorem consumeKey_withAudio : (s.withAudio a).consumeKey = s.consumeKey.withAudio a := by
  rw [State.consumeKey, State.consumeKey, apply_ite (State.withAudio · a)]
  rfl

theorem skipIf_withAudio (holds : Bool) :
    skipIf (s.withAudio a) holds = mapNext (State.withAudio · a) (skipIf s holds) := by
  cases holds <;> rfl

theorem withRange_withAudio (n : Nat) {e e' : Result} (h : e' = mapNext (State.withAudio · a) e) :
    withRange (s.withAudio a) n e' = mapNext (State.withAudio · a) (withRange s n e) := by
  rw [h, withRange, withRange, mapNext_ite]
  rfl

/-- No instruction reads the audio state: with another one it answers the same, that one kept (R329). -/
theorem exec_withAudio (i : Instr) : exec i (s.withAudio a) = mapNext (State.withAudio · a) (exec i s) := by
  cases i with
  | cls | jp | jpV0 | ldImm | addImm | ldReg | orReg | andReg | xorReg | rnd | ldI | addI | ldF | ldVDt | ldDt | ldSt =>
    rfl
  | seImm | sneImm | seReg | sneReg | skp | sknp => exact skipIf_withAudio s a _
  | addReg | subReg | shr | subn | shl => exact congrArg Host.Outcome.next (writeRF_withAudio s a ..)
  | ret =>
    rw [exec, exec, execRet, execRet, mapNext_ite]
    rfl
  | call nnn =>
    rw [exec, exec, execCall, execCall, apply_dite (mapNext (State.withAudio · a))]
    rfl
  | ldVK x =>
    cases hk : s.key with
    | none =>
      rw [exec_ldVK_not_pressed x hk, exec_ldVK_not_pressed x (s := s.withAudio a) hk]
      rfl
    | some k =>
      rw [exec_ldVK_pressed x hk, exec_ldVK_pressed x (s := s.withAudio a) hk]
      exact congrArg Host.Outcome.next (consumeKey_withAudio (s.setV x (keyByte k)) a)
  | drw => exact withRange_withAudio s a _ rfl
  | ldB => exact withRange_withAudio s a _ (congrArg Host.Outcome.next (writeBytes_withAudio s a ..))
  | ldMemV x =>
    refine withRange_withAudio s a _ (congrArg Host.Outcome.next ?_)
    exact (congrArg (State.advanceI · x) (writeBytes_withAudio s a ..)).trans (advanceI_withAudio _ a x)
  | ldVMem x =>
    refine withRange_withAudio s a _ (congrArg Host.Outcome.next ?_)
    exact (congrArg (State.advanceI · x) (loadRegs_withAudio s a ..)).trans (advanceI_withAudio _ a x)

end WithAudio

/-- Settles O40: the audio state is in the part no instruction writes, and none reads it. -/
theorem instructionsIgnoreTheAudio : Obligations.InstructionsIgnoreTheAudio := by
  intro i s t a h
  refine ⟨congrArg Unwritten.audio (exec_keepsUnwritten i s t h), ?_⟩
  calc exec i (s.withAudio a) = mapNext (State.withAudio · a) (exec i s) := exec_withAudio s a i
    _ = .next (t.withAudio a) := by rw [h, mapNext_next]

/-- The state with the model's flag of FINISH set (log 10). -/
def State.markFinished (s : State) : State := { s with finished := true }

/-- No operation but STEP reads the flag of FINISH. -/
theorem perform_markFinished {op : HostOp} (hop : op ≠ .step) (s : State) :
    perform op s.markFinished = mapNext State.markFinished (perform op s) := by
  cases op with
  | step => exact absurd rfl hop
  | tick k =>
    simp only [perform, execTick, mapNext_ite, mapNext_next, mapNext_refused]
    rfl
  | pull req =>
    simp only [perform, execPull, mapNext_ite, mapNext_next, mapNext_refused]
    rfl
  | setKey | setQuirks | boot | observe | finish => rfl

/-- No operation but STEP answers the outcome fault. -/
theorem perform_ne_fault {op : HostOp} (hop : op ≠ .step) (s : State) (f : Fault) : perform op s ≠ .fault f := by
  cases op with
  | step => exact absurd rfl hop
  | tick k =>
    simp only [perform, execTick]
    split_ifs <;> exact nofun
  | pull req =>
    simp only [perform, execPull]
    split_ifs <;> exact nofun
  | setKey | setQuirks | boot | observe | finish => exact nofun

/-- Settles O53: FINISH sets the flag, STEP is refused by it, and nothing else reads it. -/
theorem finishOnlyEndsTheSteps : Obligations.FinishOnlyEndsTheSteps := by
  intro s
  refine ⟨s.markFinished, rfl, rfl, fun hb => interpret_finished hb rfl, fun hb => interpret_notBooted hb, rfl,
    fun _ => rfl, fun op hop => ⟨fun u hu => ?_, fun r hr => ?_, perform_ne_fault hop s⟩⟩
  · rw [perform_markFinished hop, hu, mapNext_next]
    rfl
  · rw [perform_markFinished hop, hr, mapNext_refused]

end Sys2Proof.Machine
end

section
/-! PROOFS. BOOT (spec/70_reset_and_hazards.md R371): what each address reads after it. The three kinds of address, glyph
bytes, image and free bytes, are those of `cellLookup_bootMemory`. -/

namespace Sys2Proof.Machine

/-! ### What an unlisted address reads as (R62; log 3) -/

theorem memoryUnlisted_of_lt (font : Vector Byte Config.fontLen) (boots : Nat) {a : Nat} (h : a < 80) :
    memoryUnlisted font boots a = font[a]'h := by
  simp [memoryUnlisted, memoryKnown, h]

theorem memoryUnlisted_of_ge (font : Vector Byte Config.fontLen) (boots : Nat) {a : Nat} (h : 80 ≤ a) :
    memoryUnlisted font boots a = Config.memoryByte boots a := by
  rw [memoryUnlisted, memoryKnown_of_ge font h, Option.getD_none]

/-! ### What an address reads after BOOT (R371) -/

section Boot

variable (s : State) (image : List Byte)

theorem State.readByte_boot (a : Nat) :
    (s.boot image).readByte a =
      (cellLookup (bootMemory s.mem image) a).getD (memoryUnlisted s.cfg.font (s.boots + 1) a) := rfl

/-- A glyph byte, listed or not, reads as before: no free value stands for it (R62). -/
theorem State.readByte_boot_glyph {a : Nat} (h : a < 80) : (s.boot image).readByte a = s.readByte a := by
  rw [State.readByte_boot, cellLookup_bootMemory, if_pos h, State.readByte, memoryRead, memoryUnlisted_of_lt _ _ h,
    memoryUnlisted_of_lt _ _ h]

theorem State.readByte_boot_image {k : Nat} (h : k < min image.length 3584) :
    (s.boot image).readByte (0x200 + k) = image.getD k 0 := by
  obtain ⟨hlen, hmax⟩ := Nat.lt_min.1 h
  have himage : (image.take Config.progMax)[k]? = some image[k] :=
    (List.getElem?_take_of_lt hmax).trans (List.getElem?_eq_getElem hlen)
  rw [State.readByte_boot, cellLookup_bootMemory, if_neg (by omega), if_pos (by omega), Nat.add_sub_cancel_left, himage,
    Option.getD_some, List.getD_eq_getElem _ _ hlen]

/-- Past the glyph set and outside the loaded image, a byte is the free value of this boot (D17; log 3). -/
theorem State.readByte_boot_free {a : Nat} (hglyph : 80 ≤ a) (himage : 0x200 ≤ a → 0x200 + min image.length 3584 ≤ a) :
    (s.boot image).readByte a = Config.memoryByte (s.boots + 1) a := by
  have hunlisted : cellLookup (bootMemory s.mem image) a = none := by
    rw [cellLookup_bootMemory, if_neg (by omega)]
    split_ifs with h
    · have hlen : (image.take Config.progMax).length = min 3584 image.length := List.length_take
      have := himage h
      exact List.getElem?_eq_none (by omega)
    · rfl
  rw [State.readByte_boot, hunlisted, Option.getD_none, memoryUnlisted_of_ge _ _ hglyph]

/-! ### The registers and the stack after BOOT (R371) -/

theorem State.getV_boot (r : Nibble) : (s.boot image).getV r = 0 := Vector.getElem_replicate _

theorem State.getStack_boot (j : StackIndex) : (s.boot image).getStack j = 0 := Vector.getElem_replicate _

end Boot

/-- Settles O51: memory by the three kinds of address, every other field as BOOT writes or leaves it. -/
theorem bootResetsTheMachine : Obligations.BootResetsTheMachine := by
  intro s image
  have hfree : ∀ a, (0x50 ≤ a ∧ a < 0x200) ∨ (0x200 + min image.length 3584 ≤ a ∧ a < 4096) →
      (s.boot image).readByte a = Config.memoryByte (s.boots + 1) a := by
    rintro a (⟨hlow, hhigh⟩ | ⟨hend, -⟩)
    · exact s.readByte_boot_free image hlow fun h => absurd hhigh (Nat.not_lt.2 h)
    · exact s.readByte_boot_free image (by omega) fun _ => hend
  exact ⟨s.boot image, rfl, s.getV_boot image, rfl, rfl, rfl, s.getStack_boot image, rfl, rfl, Display.get_clear,
    fun _ h => s.readByte_boot_glyph image h, fun _ h => s.readByte_boot_image image h, hfree, rfl, rfl, rfl, rfl, rfl,
    rfl, rfl⟩

end Sys2Proof.Machine
end
